-- ==== Sys2Proof/Word.lean ====
section
/-! DEFINITION. The widths the spec fixes (R7): the byte and the two-byte value. Addresses are not here: their width is a
parameter (R5) and their arithmetic is exact (R8), so an address is a natural number. -/

namespace Sys2Proof

/-- The storage unit, 8 bits (R7, R21). -/
abbrev Byte := BitVec 8

/-- The width of a data bus and of a 16-bit access, two bytes (R7). -/
abbrev Half := BitVec 16

end Sys2Proof
end

