-- ==== Sys2Proof/Config.lean ====
section
/-! DEFINITION. The parameters the spec leaves open (R5, R6, U6) and the free values (U1, U2). -/

namespace Sys2Proof

/-- The two ports, with identical capabilities (R7, D6). -/
inductive Port where
  | a
  | b
deriving DecidableEq, Repr

/-- The port that is not this one. -/
def Port.other : Port → Port
  | .a => .b
  | .b => .a

/-- AW and CAPACITY (R5, R6): fixed when the block is built, never changed afterwards (R154). Held in State (log 1). -/
structure Params where
  /-- AW, the address width in bits (R5) -/
  aw : Nat
  /-- CAPACITY, the number of addressable bytes (R6) -/
  capacity : Nat
deriving DecidableEq, Repr

/-- The legal values of the parameters, the table of R7. -/
abbrev Params.Legal (p : Params) : Prop :=
  1 ≤ p.aw ∧ 1 ≤ p.capacity ∧ p.capacity ≤ 2 ^ p.aw

/-- The reference configuration of R5 and R6: AW = 16 and CAPACITY = 2^AW. -/
def Params.reference : Params := { aw := 16, capacity := 65536 }

/-- FREE VALUE (U1, R23; log 2): what load number `draw` reads at address `addr` when no store since power-up has written
that byte. Nothing is known of it. -/
opaque Config.unwrittenByte (draw addr : Nat) : Byte

/-- FREE VALUE (U2, R153; log 9): the register `ack` of a port at power-up, before the first edge. -/
opaque Config.powerUpAck (draw : Nat) (p : Port) : Bool

/-- FREE VALUE (U2, R153; log 9): the register `err` of a port at power-up, before the first edge. -/
opaque Config.powerUpErr (draw : Nat) (p : Port) : Bool

/-- FREE VALUE (U2, R153; log 9): the register `rdata` of a port at power-up, before the first edge. -/
opaque Config.powerUpRdata (draw : Nat) (p : Port) : Half

/-- FREE VALUE (U2, R153; log 9): the register `err_addr` of a port at power-up, before the first edge, as a number of
which the register holds the low AW+1 bits. -/
opaque Config.powerUpErrAddr (draw : Nat) (p : Port) : Nat

end Sys2Proof
end

