-- ==== Sys2Proof/Syntax.lean ====
section
/-! DEFINITION. The request bundle as the pins carry it (R70, R71) and the five operations it selects (R77). -/

namespace Sys2Proof

/-- The request inputs of one port, sampled at one rising edge (R70, R71). -/
structure Request where
  /-- 1: the port presents an operation (R72) -/
  req : Bool
  /-- 1: a store, 0: a load (R73) -/
  we : Bool
  /-- 1: a 16-bit access, 0: an 8-bit access (R74) -/
  w16 : Bool
  /-- the byte address, an unsigned AW-bit integer used as presented (R75) -/
  addr : Nat
  /-- the store value, lane 0 in bits 7:0 and lane 1 in bits 15:8 (R76) -/
  wdata : Half
deriving DecidableEq, Repr

/-- The idle request with every ignored field zero: what a port that presents nothing drives (R72, R81). -/
def Request.idle : Request := { req := false, we := false, w16 := false, addr := 0, wdata := 0#16 }

/-- The access widths, 8 bits and 16 bits and no other (R52). -/
inductive Width where
  | byte
  | half
deriving DecidableEq, Repr

/-- The number of bytes of an access, `n` of R45. -/
def Width.bytes : Width → Nat
  | .byte => 1
  | .half => 2

/-- The operations of opcode_table.json, with the operands each one uses; a field it ignores is no operand (R78). -/
inductive Instr where
  /-- NOP: no operation at this edge (R120) -/
  | nop
  /-- LOAD8: load one byte (R110) -/
  | load8 (addr : Nat)
  /-- LOAD16: load two bytes, the low-order byte at `addr` (R111) -/
  | load16 (addr : Nat)
  /-- STORE8: store one byte, `data` = wdata[7:0] (R100) -/
  | store8 (addr : Nat) (data : Byte)
  /-- STORE16: store two bytes, the low-order byte at `addr` (R101) -/
  | store16 (addr : Nat) (data : Half)
deriving DecidableEq, Repr

/-- The byte address and the width of the access an operation makes; NOP makes none (R120). -/
def Instr.access? : Instr → Option (Width × Nat)
  | .nop => none
  | .load8 addr => some (.byte, addr)
  | .load16 addr => some (.half, addr)
  | .store8 addr _ => some (.byte, addr)
  | .store16 addr _ => some (.half, addr)

/-- Whether an operation is a store (R73). -/
def Instr.isStore : Instr → Bool
  | .nop => false
  | .load8 _ => false
  | .load16 _ => false
  | .store8 _ _ => true
  | .store16 _ _ => true

end Sys2Proof
end

