-- ==== Sys2Proof/WellFormed.lean ====
section
/-! DEFINITION. What the pins can carry: an address has AW bits (R5, R75). Every other field's width is in its type. -/

namespace Sys2Proof

/-- A request that the pins of a block with address width `aw` can represent (R70, R75). -/
abbrev Request.Representable (aw : Nat) (r : Request) : Prop := r.addr < 2 ^ aw

/-- An instruction whose operands the request format of address width `aw` admits (R71). -/
def Instr.wellFormed (aw : Nat) : Instr → Bool
  | .nop => true
  | .load8 addr => decide (addr < 2 ^ aw)
  | .load16 addr => decide (addr < 2 ^ aw)
  | .store8 addr _ => decide (addr < 2 ^ aw)
  | .store16 addr _ => decide (addr < 2 ^ aw)

end Sys2Proof
end

