-- ==== Sys2Proof/Decode.lean ====
section
/-! DEFINITION. From a packed word to the request bundle (R71), from the bundle to the operation (R77), and back.
Every bundle is a defined request (R78); the only word refused is one with bits above those of the format. -/

namespace Sys2Proof

/-- Why a word is no request: the format has AW + 19 bits and no more (R71). -/
inductive DecodeError where
  /-- a bit above bit AW+18 is set, which no pin carries (safe: such a word is given no meaning) -/
  | wordTooWide
deriving DecidableEq, Repr

/-- The number of bits of a packed request (R71). -/
def requestBits (aw : Nat) : Nat := aw + 19

/-- Bits `lo + n - 1` down to `lo` of a word, as a number (R8). -/
def bitField (lo n w : Nat) : Nat := w / 2 ^ lo % 2 ^ n

/-- The fields of a packed word (R71): req [0], we [1], w16 [2], addr [AW+2:3], wdata [AW+18:AW+3]. -/
def unpack (aw w : Nat) : Request :=
  { req := bitField 0 1 w == 1
    we := bitField 1 1 w == 1
    w16 := bitField 2 1 w == 1
    addr := bitField 3 aw w
    wdata := BitVec.ofNat 16 (bitField (aw + 3) 16 w) }

/-- The opcode map of R77 on the control field, with STORE8's data taken from lane 0 (R48, R76). Total (R78). -/
def decodeRequest (r : Request) : Instr :=
  match r.req, r.we, r.w16 with
  | false, _, _ => .nop
  | true, false, false => .load8 r.addr
  | true, false, true => .load16 r.addr
  | true, true, false => .store8 r.addr (r.wdata.extractLsb' 0 8)
  | true, true, true => .store16 r.addr r.wdata

/-- The operation a packed word stands for, at address width `aw`. -/
def decodeWord (aw w : Nat) : Except DecodeError Instr :=
  if w < 2 ^ requestBits aw then .ok (decodeRequest (unpack aw w)) else .error .wordTooWide

/-- The address width at which opcode_table.json lays out its words (its encoding notes; R5). -/
def tableAddressWidth : Nat := 16

/-- The host's view of the decoder: a word numbered as opcode_table.json numbers it, at AW = 16. The table's 35 bits and
the padding to whole bytes (`nbits`) hold the whole request, so nothing above them is read. -/
def decodeTableWord (_nbits w : Nat) : Option Instr :=
  match decodeWord tableAddressWidth w with
  | .ok i => some i
  | .error _ => none

/-- A bit as a number. -/
def bitNat (b : Bool) : Nat := if b then 1 else 0

/-- The packed word of a request: the fields of R71 at their places. -/
def pack (aw : Nat) (r : Request) : Nat :=
  bitNat r.req + 2 * bitNat r.we + 4 * bitNat r.w16 + 8 * r.addr + 2 ^ (aw + 3) * r.wdata.toNat

/-- The request that presents an operation: the control bits of R77, and zero in every field the operation ignores
(log 11). -/
def encodeRequest : Instr → Request
  | .nop => Request.idle
  | .load8 addr => { req := true, we := false, w16 := false, addr, wdata := 0#16 }
  | .load16 addr => { req := true, we := false, w16 := true, addr, wdata := 0#16 }
  | .store8 addr data => { req := true, we := true, w16 := false, addr, wdata := data.setWidth 16 }
  | .store16 addr data => { req := true, we := true, w16 := true, addr, wdata := data }

/-- The packed word that presents an operation. -/
def encodeWord (aw : Nat) (i : Instr) : Nat := pack aw (encodeRequest i)

end Sys2Proof
end

