-- ==== Sys2Proof/Machine/State.lean ====
section
/-! DEFINITION. The state: all that R20 gives the block, its parameters, and the model's own fields (port, inputs, draws).
Plain data throughout. -/

namespace Sys2Proof.Machine

/-- Why the machine stops with a fault: never. The block's one error, OutOfRange, is a response after which the block goes
on (R133, R134, R136), so it is a next state; the spec names nothing that stops the block (log 15; safe: there is no fault
that could hide an effect). -/
inductive Fault
deriving DecidableEq, Repr

/-- Why the model gives a step no meaning. No instruction is refused; each reason concerns what the outside world presents,
and each is one the spec asks a model to refuse. -/
inductive Refusal where
  /-- raised by no arm: every row of the opcode table has its meaning (safe) -/
  | notModelled (mnemonic : String)
  /-- raised by the edge when an input is not a stable 0 or 1 (R161, U7, D20; safe, log 6) -/
  | unstableInput
  /-- raised by the step when AW or CAPACITY lies outside its legal values (U6, R7; safe, log 7) -/
  | illegalParameters
  /-- raised by the edge when a request's address has more than AW bits, which no pins carry (R75, 00_scope.md section 6;
  safe, log 8) -/
  | unrepresentableAddress
deriving DecidableEq, Repr

/-- The array: the bytes written since power-up, by address, in strictly rising order. An address that is not listed has
not been written, and reads as no held value (R23; log 2). -/
abbrev Memory := List Host.Cell

/-- The canonical form: addresses strictly rising. No entry can equal what an unlisted address reads as, since that is no
value. -/
abbrev Memory.wf (m : Memory) : Prop := m.Pairwise (fun x y => x.1 < y.1)

/-- `mem[a]` exists only for `a < CAPACITY` (R21). -/
abbrev Memory.Within (capacity : Nat) (m : Memory) : Prop := ∀ c ∈ m, c.1 < capacity

/-- The four response registers of one port (R24). -/
structure Response where
  /-- the port presented a request at the previous edge and it was performed or refused -/
  ack : Bool
  /-- that request raised OutOfRange -/
  err : Bool
  /-- the loaded value; 0 for a store, an error or no request -/
  rdata : Half
  /-- the highest touched address of the failed request, an AW+1-bit value; 0 otherwise -/
  errAddr : Nat
deriving DecidableEq, Repr

/-- `respond(p, 0, 0, 16'h0000, 0)`: no request, or reset (R79, R120, R151). -/
def Response.idle : Response := { ack := false, err := false, rdata := 0#16, errAddr := 0 }

/-- An input as an edge samples it: a stable value, or anything else (R161). -/
inductive Sample (α : Type) where
  | driven (v : α)
  | unstable
deriving DecidableEq, Repr

/-- Everything one rising edge samples (R31, R150): `rst` and both ports' request pins. -/
structure EdgeInputs where
  rst : Sample Bool
  a : Sample Request
  b : Sample Request
deriving DecidableEq, Repr

/-- An edge at which nobody presents anything: `rst = 0` and NOP on both ports (R81). -/
def EdgeInputs.idle : EdgeInputs :=
  { rst := .driven false, a := .driven Request.idle, b := .driven Request.idle }

/-- What the outside world does next: it presents levels at a rising edge, or power is lost and comes back (R145; log 9). -/
inductive Stimulus where
  | edge (e : EdgeInputs)
  | powerCycle
deriving DecidableEq, Repr

/-- The whole state. -/
structure State where
  /-- AW and CAPACITY, never changed (R5, R6; log 1) -/
  params : Params
  /-- the array (R20, R21) -/
  mem : Memory
  /-- port A's response registers (R20, R24) -/
  a : Response
  /-- port B's response registers (R20, R24) -/
  b : Response
  /-- MODEL'S OWN: the port whose request is performed now (R58 performs A's, then B's; log 5) -/
  port : Port
  /-- MODEL'S OWN: what the outside world does at the coming steps, the next one first (R31; log 4) -/
  inputs : List Stimulus
  /-- MODEL'S OWN: how many draws have been made; it indexes the free values (R23, U1; log 3) -/
  draws : Nat
deriving DecidableEq, Repr

/-- The response registers of a port. -/
def State.response (s : State) : Port → Response
  | .a => s.a
  | .b => s.b

/-- The response registers of a port take new values; the only writer of them (R24, R25). -/
def State.setResponse (s : State) (p : Port) (r : Response) : State :=
  match p with
  | .a => { s with a := r }
  | .b => { s with b := r }

/-- From now on `exec` performs this port's request. -/
def State.serve (s : State) (p : Port) : State := { s with port := p }

/-- Right after an edge with `rst = 1` (R32): both responses idle, nothing stored yet, the reference parameters (log 1). -/
def State.reset : State :=
  { params := Params.reference
    mem := []
    a := Response.idle
    b := Response.idle
    port := .a
    inputs := []
    draws := 0 }

end Sys2Proof.Machine
end

