-- ==== Sys2Proof/Machine/Operands.lean ====
section
/-! DEFINITION. Operand assembly (R84): the highest touched address, the bounds check, the lanes of a data bus. The block
has no immediates and no addressing mode but the absolute byte address. -/

namespace Sys2Proof.Machine

/-- `hi`, the highest touched address: `addr` plus 0 or 1, exact (R45). -/
def highestTouched (w : Width) (addr : Nat) : Nat := addr + (w.bytes - 1)

/-- `InRange(addr, n)`: the highest touched address against CAPACITY (R45). -/
def inRange (capacity : Nat) (w : Width) (addr : Nat) : Bool := decide (highestTouched w addr < capacity)

/-- Whether an access of this width at `addr` touches the byte at `x` (R45, R74). -/
def touches (w : Width) (addr x : Nat) : Bool := decide (addr ≤ x ∧ x ≤ highestTouched w addr)

/-- Lane 0 of a data bus, the low-order byte `v[7:0]`. -/
def lane0 (v : Half) : Byte := v.extractLsb' 0 8

/-- Lane 1 of a data bus, the high-order byte `v[15:8]`. -/
def lane1 (v : Half) : Byte := v.extractLsb' 8 8

/-- `{hi, lo}`: two lanes as one 16-bit value (R8, R51). -/
def joinLanes (hi lo : Byte) : Half := hi ++ lo

/-- `zext_16(v)`: lane 1 is driven with zeros (R50). -/
def zext16 (v : Byte) : Half := joinLanes 0#8 v

end Sys2Proof.Machine
end

