-- ==== Sys2Proof/Machine/Flags.lean ====
section
/-! DEFINITION. The block has no flags (R28). The only status a request produces is its own response; here are the response
tuples of R79, one for each outcome. -/

namespace Sys2Proof.Machine

/-- A STORE8 or STORE16 in range: (1, 0, 0, 0) (R79). -/
def Response.stored : Response := { ack := true, err := false, rdata := 0#16, errAddr := 0 }

/-- A LOAD8 or LOAD16 in range: (1, 0, data, 0) (R79). -/
def Response.loaded (v : Half) : Response := { ack := true, err := false, rdata := v, errAddr := 0 }

/-- Any operation out of range: (1, 1, 0, hi) (R79, R132, R133). -/
def Response.outOfRange (hi : Nat) : Response := { ack := true, err := true, rdata := 0#16, errAddr := hi }

/-- The registers of a port at power-up, before the first edge: free values of the registers' widths (R32, R153, U2). -/
def Response.powerUp (params : Params) (draw : Nat) (p : Port) : Response :=
  { ack := Config.powerUpAck draw p
    err := Config.powerUpErr draw p
    rdata := Config.powerUpRdata draw p
    errAddr := Config.powerUpErrAddr draw p % 2 ^ (params.aw + 1) }

end Sys2Proof.Machine
end

