-- ==== Sys2Proof/Machine/Ops.lean ====
section
/-! DEFINITION. The named operations: the array's reads and writes, the data multiplexers, the guarded access with its one
error, reset, power-up and the output pins. -/

namespace Sys2Proof.Machine

/-- The byte held at `a`, or none when nothing has been stored there since power-up (R21, R23). -/
def Memory.read : Memory → Nat → Option Byte
  | [], _ => none
  | (k, v) :: rest, a => if k = a then some v else Memory.read rest a

/-- `mem[a] <- v` (R9), keeping the addresses strictly rising. -/
def Memory.write : Memory → Nat → Byte → Memory
  | [], a, v => [(a, v)]
  | (k, w) :: rest, a, v =>
    if a < k then (a, v) :: (k, w) :: rest
    else if a = k then (a, v) :: rest
    else (k, w) :: Memory.write rest a v

/-- What a load reads at `a`: the byte held there, or this load's draw for a byte never written (R23, U1). -/
def State.loadByte (s : State) (a : Nat) : Byte :=
  match s.mem.read a with
  | some v => v
  | none => Config.unwrittenByte s.draws a

/-- `MemRead(addr, n)` on the 16-bit data bus: the 8-bit read multiplexer (R50) and the 16-bit one (R51), low-order byte at
the lower address (R42). -/
def memRead (s : State) : Width → Nat → Half
  | .byte, addr => zext16 (s.loadByte addr)
  | .half, addr => joinLanes (s.loadByte (addr + 1)) (s.loadByte addr)

/-- `MemWrite(addr, n, v)`: the 8-bit write multiplexer (R48) and the 16-bit one (R49), low-order byte at the lower address
(R42). -/
def memWrite (m : Memory) : Width → Nat → Half → Memory
  | .byte, addr, v => m.write addr (lane0 v)
  | .half, addr, v => (m.write addr (lane0 v)).write (addr + 1) (lane1 v)

/-- `respond(p, ...)` for the port whose request is performed now (R9, R24). -/
def State.respond (s : State) (r : Response) : State := s.setResponse s.port r

/-- `raise OutOfRange(hi)`: the error response and nothing else; the block has no trap entry and no return (R133, R136,
R137). -/
def raiseOutOfRange (hi : Nat) (s : State) : State := s.respond (Response.outOfRange hi)

/-- An access behind the bounds check: performed when in range, OutOfRange with the highest touched address otherwise, the
check made before any byte is touched (R45, R46, R131). -/
def checked (w : Width) (addr : Nat) (access : State → State) (s : State) : State :=
  match inRange s.params.capacity w addr with
  | true => access s
  | false => raiseOutOfRange (highestTouched w addr) s

/-- A load that passed the check: the read data in the response, the array unchanged (R54, R58). The draw counter advances,
so that no other load shares its draws (U1). -/
def performLoad (w : Width) (addr : Nat) (s : State) : State :=
  { s with draws := s.draws + 1 }.respond (Response.loaded (memRead s w addr))

/-- A store that passed the check: the addressed bytes change at this edge, the response is OK (R54, R58). -/
def performStore (w : Width) (addr : Nat) (v : Half) (s : State) : State :=
  { s with mem := memWrite s.mem w addr v }.respond Response.stored

/-- An edge with `rst = 1`: both ports' responses idle, the array and all else unchanged (R151, R152). -/
def resetEdge (s : State) : State := (s.setResponse .a Response.idle).setResponse .b Response.idle

/-- The block as it powers up: nothing stored, the response registers unspecified, the parameters fixed (R23, R32, R153).
Reached again after a loss of power (R145). -/
def powerUp (params : Params) (draws : Nat) (inputs : List Stimulus) : State :=
  { params
    mem := []
    a := Response.powerUp params draws .a
    b := Response.powerUp params draws .b
    port := .a
    inputs
    draws := draws + 1 }

/-- The output pins (R70). -/
structure Outputs where
  /-- `a_ack`, `a_err`, `a_rdata`, `a_err_addr` -/
  a : Response
  /-- `b_ack`, `b_err`, `b_rdata`, `b_err_addr` -/
  b : Response
  /-- `capacity_o` -/
  capacity : Nat
deriving DecidableEq, Repr

/-- The response registers drive the outputs directly, and `capacity_o` is wired to CAPACITY (R24, R29, R83, R150). -/
def State.outputs (s : State) : Outputs := { a := s.a, b := s.b, capacity := s.params.capacity }

end Sys2Proof.Machine
end

