-- ==== Sys2Proof/Machine/Idle.lean ====
section
/-! DEFINITION. The idle request, NOP (R120). -/

namespace Sys2Proof.Machine

/-- NOP: the idle response, no access and no bounds check (R120). -/
def execNop (s : State) : Host.Outcome State Fault Refusal := .next (s.respond Response.idle)

end Sys2Proof.Machine
end

