-- ==== Sys2Proof/Machine/Load.lean ====
section
/-! DEFINITION. The load family, LOAD8 and LOAD16 (R110, R111). -/

namespace Sys2Proof.Machine

/-- LOAD8: `{8'h00, mem[addr]}`, or OutOfRange(addr) (R110). -/
def execLoad8 (addr : Nat) (s : State) : Host.Outcome State Fault Refusal :=
  .next (checked .byte addr (performLoad .byte addr) s)

/-- LOAD16: `{mem[addr+1], mem[addr]}`, or OutOfRange(addr+1) (R111). -/
def execLoad16 (addr : Nat) (s : State) : Host.Outcome State Fault Refusal :=
  .next (checked .half addr (performLoad .half addr) s)

end Sys2Proof.Machine
end

