-- ==== Sys2Proof/Machine/Store.lean ====
section
/-! DEFINITION. The store family, STORE8 and STORE16 (R100, R101). -/

namespace Sys2Proof.Machine

/-- STORE8: `mem[addr] <- data`, or OutOfRange(addr) (R100). -/
def execStore8 (addr : Nat) (data : Byte) (s : State) : Host.Outcome State Fault Refusal :=
  .next (checked .byte addr (performStore .byte addr (zext16 data)) s)

/-- STORE16: low-order byte at `addr`, high-order byte at `addr + 1`, or OutOfRange(addr+1) and no byte written (R101). -/
def execStore16 (addr : Nat) (data : Half) (s : State) : Host.Outcome State Fault Refusal :=
  .next (checked .half addr (performStore .half addr data) s)

end Sys2Proof.Machine
end

