-- ==== Sys2Proof/Machine/Dispatch.lean ====
section
/-! DEFINITION. One arm per instruction: the request performed for the port that State.port names. -/

namespace Sys2Proof.Machine

def exec (i : Instr) (s : State) : Host.Outcome State Fault Refusal :=
  match i with
  | .nop => Sys2Proof.Machine.execNop s
  | .load8 addr => Sys2Proof.Machine.execLoad8 addr s
  | .load16 addr => Sys2Proof.Machine.execLoad16 addr s
  | .store8 addr data => Sys2Proof.Machine.execStore8 addr data s
  | .store16 addr data => Sys2Proof.Machine.execStore16 addr data s

end Sys2Proof.Machine
end

