-- ==== Sys2Proof/Machine/Edge.lean ====
section
/-! DEFINITION. One rising clock edge (R58) and what the outside world presents at it. Step.lean only calls this file. -/

namespace Sys2Proof.Machine

/-- Go on from a next state; a stop stays a stop. -/
def andThen (o : Host.Outcome State Fault Refusal) (k : State → Host.Outcome State Fault Refusal) :
    Host.Outcome State Fault Refusal :=
  match o with
  | .next s => k s
  | .fault r => .fault r
  | .refused r => .refused r

/-- One port's request performed against the array as it stands (`Perform` of R58). -/
def performRequest (p : Port) (r : Request) (s : State) : Host.Outcome State Fault Refusal :=
  exec (decodeRequest r) (s.serve p)

/-- Both ports' requests at one edge: port A's first, port B's against the array port A left, whether or not port A's
request failed (R57, R58). -/
def performEdge (ra rb : Request) (s : State) : Host.Outcome State Fault Refusal :=
  andThen (performRequest .a ra s) fun s1 =>
    andThen (performRequest .b rb s1) fun s2 => .next (s2.serve .a)

/-- One rising edge with these inputs (R58, R150, R151). An input that is not stable, or an address the pins cannot carry, is
refused at every edge, also where the field would be ignored (R161; logs 6 and 8). -/
def clockEdge (e : EdgeInputs) (s : State) : Host.Outcome State Fault Refusal :=
  match e.rst, e.a, e.b with
  | .driven rst, .driven ra, .driven rb =>
    if ra.Representable s.params.aw ∧ rb.Representable s.params.aw then
      if rst then .next (resetEdge s) else performEdge ra rb s
    else .refused .unrepresentableAddress
  | .unstable, _, _ => .refused .unstableInput
  | .driven _, .unstable, _ => .refused .unstableInput
  | .driven _, .driven _, .unstable => .refused .unstableInput

/-- What the outside world does next, taken off the list, happens; when the list is empty the next edge is an idle one
(R81; log 4). Illegal parameters are refused (U6; log 7). -/
def nextEvent (s : State) : Host.Outcome State Fault Refusal :=
  if s.params.Legal then
    match s.inputs with
    | [] => clockEdge EdgeInputs.idle s
    | .edge e :: rest => clockEdge e { s with inputs := rest }
    | .powerCycle :: rest => .next (powerUp s.params s.draws rest)
  else .refused .illegalParameters

/-- An edge with `rst = 0` at which port A presents this request and port B nothing. -/
def EdgeInputs.onlyPortA (r : Request) : EdgeInputs :=
  { rst := .driven false, a := .driven r, b := .driven Request.idle }

/-- Before all that the outside world does next comes one more edge, at which port A's requester presents this table word
(log 10). -/
def presentTableWord (s : State) (w : Nat) : State :=
  { s with inputs := .edge (EdgeInputs.onlyPortA (unpack tableAddressWidth w)) :: s.inputs }

end Sys2Proof.Machine
end

