-- ==== Sys2Proof/Machine/Step.lean ====
section
/-! DEFINITION. The step: one rising clock edge (or one loss of power), as Edge.lean gives it. -/

namespace Sys2Proof.Machine

/-- One step (00_scope.md section 6, R58). -/
def step (s : State) : Host.Outcome State Fault Refusal := nextEvent s

/-- The word of opcode_table.json presented on port A at the very next edge, port B idle and `rst = 0` (log 10). -/
def State.withFetchWord (s : State) (_nbits w : Nat) : State := presentTableWord s w

end Sys2Proof.Machine
end

