-- ==== Sys2Proof/Machine/Reference.lean ====
section
/-! DEFINITION. The pseudocode of R58 written out a second time, over the array as a function and the request's own bits,
with R42's primitives as arithmetic on numbers and none of the model's operations. The step is stated to agree with it. A
byte never written is any value: `fresh` gives the draw at each address (R23, U1). -/

namespace Sys2Proof.Machine

/-- `M`: the byte held at each address, or none where no store has been since power-up. -/
abbrev RefArray := Nat → Option Byte

/-- A byte as a load sees it. -/
def refByte (M : RefArray) (fresh : Nat → Byte) (x : Nat) : Nat :=
  match M x with
  | some v => v.toNat
  | none => (fresh x).toNat

/-- `Perform(M, r)` of R58, the response tuple in the order (ack, err, rdata, err_addr). -/
def refPerform (capacity : Nat) (fresh : Nat → Byte) (M : RefArray) (r : Request) : RefArray × Response :=
  if r.req = false then (M, ⟨false, false, 0#16, 0⟩)
  else
    let n := if r.w16 then 2 else 1
    let hi := r.addr + (n - 1)
    if capacity ≤ hi then (M, ⟨true, true, 0#16, hi⟩)
    else if r.we then
      (fun x =>
        if x = r.addr then some (BitVec.ofNat 8 (r.wdata.toNat % 256))
        else if n = 2 ∧ x = r.addr + 1 then some (BitVec.ofNat 8 (r.wdata.toNat / 256))
        else M x,
       ⟨true, false, 0#16, 0⟩)
    else if n = 2 then
      (M, ⟨true, false, BitVec.ofNat 16 (256 * refByte M fresh (r.addr + 1) + refByte M fresh r.addr), 0⟩)
    else (M, ⟨true, false, BitVec.ofNat 16 (refByte M fresh r.addr), 0⟩)

/-- `Edge(M, rst, reqA, reqB)` of R58: the array and both ports' responses after the edge. -/
def refEdge (capacity : Nat) (freshA freshB : Nat → Byte) (M : RefArray) (rst : Bool) (ra rb : Request) :
    RefArray × Response × Response :=
  if rst then (M, ⟨false, false, 0#16, 0⟩, ⟨false, false, 0#16, 0⟩)
  else
    let A := refPerform capacity freshA M ra
    let B := refPerform capacity freshB A.1 rb
    (B.1, A.2, B.2)

end Sys2Proof.Machine
end

