-- ==== Sys2Proof/Safety.lean ====
section
/-! DEFINITION. What counts as a sound state and a safe step, in the terms the statements use. -/

namespace Sys2Proof.Machine

/-- The invariant of the machine: legal parameters (R7), an array in canonical form, and no byte outside `mem[0]` to
`mem[CAPACITY-1]` (R21). -/
abbrev State.Sound (s : State) : Prop :=
  s.params.Legal ∧ s.mem.wf ∧ s.mem.Within s.params.capacity

/-- The response registers hold one of the tuples of R79, and what they hold fits their widths (R24, R132). -/
abbrev Response.Coherent (p : Params) (r : Response) : Prop :=
  (r.ack = false → r = Response.idle) ∧
  (r.err = true → r.ack = true ∧ r.rdata = 0#16 ∧ p.capacity ≤ r.errAddr ∧ r.errAddr < 2 ^ (p.aw + 1)) ∧
  (r.err = false → r.errAddr = 0)

/-- A request's access width (R74). -/
def accessWidth (r : Request) : Width := if r.w16 then .half else .byte

/-- The request is an access that passes the bounds check and touches the byte at `x` (R45, R159). -/
def accessesByte (capacity : Nat) (r : Request) (x : Nat) : Bool :=
  r.req && inRange capacity (accessWidth r) r.addr && touches (accessWidth r) r.addr x

/-- The request is a store that passes the bounds check and names the byte at `x` (R22, R45). -/
def storesByte (capacity : Nat) (r : Request) (x : Nat) : Bool := r.we && accessesByte capacity r x

/-- The byte that a store puts at `x`: lane 0 at its own address, lane 1 at the next (R42, R48, R49). -/
def storedByte (r : Request) (x : Nat) : Byte := if x = r.addr then lane0 r.wdata else lane1 r.wdata

/-- Two requests that differ at most in fields the operation ignores (R78). -/
abbrev sameOperation (r r' : Request) : Prop :=
  r.req = r'.req ∧
  (r.req = true → r.we = r'.we ∧ r.w16 = r'.w16 ∧ r.addr = r'.addr ∧
    (r.we = true → lane0 r.wdata = lane0 r'.wdata ∧ (r.w16 = true → r.wdata = r'.wdata)))

/-- Everything but the array, the draw counter and one port's response registers is as before. -/
abbrev SameOutside (p : Port) (s t : State) : Prop :=
  t.params = s.params ∧ t.inputs = s.inputs ∧ t.port = s.port ∧ t.response p.other = s.response p.other

/-- The next step is an edge at which these levels are presented, and afterwards the list is `rest`. -/
abbrev State.Presents (s : State) (rst : Bool) (ra rb : Request) (rest : List Stimulus) : Prop :=
  s.params.Legal ∧ ra.Representable s.params.aw ∧ rb.Representable s.params.aw ∧
  s.inputs = .edge { rst := .driven rst, a := .driven ra, b := .driven rb } :: rest

/-- No store of this event names the byte at `x`, and the power stays on (R22, R145). An edge with an input that is not
stable is refused, so it changes nothing. -/
def Stimulus.leaves (capacity : Nat) (x : Nat) : Stimulus → Bool
  | .powerCycle => false
  | .edge ⟨.driven false, .driven ra, .driven rb⟩ => !storesByte capacity ra x && !storesByte capacity rb x
  | .edge _ => true

end Sys2Proof.Machine
end

