-- ==== Sys2Proof/Certificates/Slice0/Obligations.lean ====
section
/-! DEFINITION. The statements for the provers. `R<n>` is a rule of spec/, `log n` is notes/assumptions/n.md. A statement
about a free value (log 2, log 9) holds for every value of it. -/

open Sys2Proof Sys2Proof.Machine

/-! ## Encoding -/

/-- Words that spec/95_test_vectors.md writes out from R71 and R77 decode to the requests they stand for there. -/
def Obligations.VectorWordsDecodeAsWritten : Prop :=
  decodeTableWord 40 0x005580003 = some (.store8 0x0000 0xAB#8) ∧
  decodeTableWord 40 0x55BB8000B = some (.store8 0x0001 0x77#8) ∧
  decodeTableWord 40 0x091A0001F = some (.store16 0x0003 0x1234#16) ∧
  decodeTableWord 40 0x7FFF80009 = some (.load8 0x0001) ∧
  decodeTableWord 40 0x00007FFFD = some (.load16 0xFFFF) ∧
  decodeTableWord 40 0x7FFFFFFFE = some .nop

/-- R71: the packed word has AW + 19 bits, and each field stands at its own bits: req [0], we [1], w16 [2], addr [AW+2:3],
wdata [AW+18:AW+3]; with AW = 16 it is the word of R71's formula. Reading the fields back gives the request. -/
def Obligations.PackedWordHoldsEachFieldAtItsBits : Prop :=
  ∀ (aw : Nat) (r : Request), r.Representable aw →
    pack aw r < 2 ^ (aw + 19) ∧
    (pack aw r).testBit 0 = r.req ∧ (pack aw r).testBit 1 = r.we ∧ (pack aw r).testBit 2 = r.w16 ∧
    (∀ k, k < aw → (pack aw r).testBit (3 + k) = r.addr.testBit k) ∧
    (∀ k, k < 16 → (pack aw r).testBit (aw + 3 + k) = r.wdata.getLsbD k) ∧
    unpack aw (pack aw r) = r ∧
    (aw = 16 → pack aw r =
      r.wdata.toNat <<< 19 ||| r.addr <<< 3 ||| r.w16.toNat <<< 2 ||| r.we.toNat <<< 1 ||| r.req.toNat)

/-- R77: bits 2:0 of a packed word select exactly one row of the opcode map; the operands are the fields of R71. -/
def Obligations.ControlBitsSelectOneOperation : Prop :=
  ∀ (aw w : Nat), w < 2 ^ (aw + 19) →
    (w % 2 = 0 → decodeWord aw w = .ok .nop) ∧
    (w % 8 = 1 → decodeWord aw w = .ok (.load8 (w / 8 % 2 ^ aw))) ∧
    (w % 8 = 5 → decodeWord aw w = .ok (.load16 (w / 8 % 2 ^ aw))) ∧
    (w % 8 = 3 → decodeWord aw w = .ok (.store8 (w / 8 % 2 ^ aw) (BitVec.ofNat 8 (w / 2 ^ (aw + 3))))) ∧
    (w % 8 = 7 → decodeWord aw w = .ok (.store16 (w / 8 % 2 ^ aw) (BitVec.ofNat 16 (w / 2 ^ (aw + 3)))))

/-- Decoding the word that encodes a well-formed instruction gives the instruction back, with every operand, at every
address width. -/
def Obligations.DecodeInvertsEncode : Prop :=
  ∀ (aw : Nat) (i : Instr), i.wellFormed aw = true →
    encodeWord aw i < 2 ^ (aw + 19) ∧ decodeWord aw (encodeWord aw i) = .ok i

/-- Every word of AW + 19 bits is a request whose operands fit the format; a word with a bit above them is none. -/
def Obligations.DecodeIsTotalAndWellFormed : Prop :=
  ∀ (aw w : Nat),
    (w < 2 ^ (aw + 19) → ∃ i, decodeWord aw w = .ok i ∧ i.wellFormed aw = true) ∧
    (2 ^ (aw + 19) ≤ w → decodeWord aw w = .error .wordTooWide)

/-- R78: every bundle the pins can carry is a defined request, which the step performs; two bundles that differ only in
ignored fields have the same effect; an address out of range is no illegal encoding but raises OutOfRange. -/
def Obligations.EveryBundleIsDefinedAndIgnoredFieldsDoNotMatter : Prop :=
  ∀ (s : State) (ra rb ra' rb' : Request) (rest : List Stimulus),
    s.Presents false ra rb rest → sameOperation ra ra' → sameOperation rb rb' →
    ra'.Representable s.params.aw → rb'.Representable s.params.aw →
    ∃ t, step s = .next t ∧
      step { s with inputs := .edge { rst := .driven false, a := .driven ra', b := .driven rb' } :: rest } = .next t ∧
      (ra.req = true → s.params.capacity ≤ highestTouched (accessWidth ra) ra.addr → t.a.err = true) ∧
      (rb.req = true → s.params.capacity ≤ highestTouched (accessWidth rb) rb.addr → t.b.err = true)

/-- A step at an edge without reset is the instruction that port A's request decodes to, and then, against the state that it
left, the instruction that port B's decodes to. Where a packed word carries a request, that is the instruction the word
decodes to. -/
def Obligations.StepRunsTheDecodedRequests : Prop :=
  ∀ (s : State) (ra rb : Request) (rest : List Stimulus), s.Presents false ra rb rest →
    step s =
      andThen (exec (decodeRequest ra) ({ s with inputs := rest }.serve .a)) (fun s1 =>
        andThen (exec (decodeRequest rb) (s1.serve .b)) (fun s2 => .next (s2.serve .a))) ∧
    (∀ w, w < 2 ^ (s.params.aw + 19) → ra = unpack s.params.aw w →
      decodeWord s.params.aw w = .ok (decodeRequest ra)) ∧
    (∀ w, w < 2 ^ (s.params.aw + 19) → rb = unpack s.params.aw w →
      decodeWord s.params.aw w = .ok (decodeRequest rb))

/-- The step after `withFetchWord` runs exactly the instruction that the table word decodes to, on port A, with port B idle
(log 10). -/
def Obligations.PresentedTableWordRunsNext : Prop :=
  ∀ (s : State) (nbits w : Nat) (i : Instr), s.params.Legal → s.params.aw = 16 → decodeTableWord nbits w = some i →
    step (s.withFetchWord nbits w) =
      andThen (exec i (s.serve .a)) (fun s1 => .next (((s1.serve .b).setResponse .b Response.idle).serve .a))

/-! ## The bounds check and its error -/

/-- R45: the highest touched address is exact, fits AW+1 bits and is compared with CAPACITY; the other forms that the rule
and conflict C4 give are equivalent; every request, load or store, is performed when the check holds and raises OutOfRange(hi)
when it does not. -/
def Obligations.BoundsCheckIsExact : Prop :=
  ∀ (p : Params) (w : Width) (addr : Nat), p.Legal → addr < 2 ^ p.aw →
    highestTouched w addr = addr + (w.bytes - 1) ∧ highestTouched w addr < 2 ^ (p.aw + 1) ∧
    (inRange p.capacity w addr = true ↔ highestTouched w addr < p.capacity) ∧
    (w = .byte → (inRange p.capacity w addr = true ↔ addr < p.capacity)) ∧
    (w = .half → (inRange p.capacity w addr = true ↔ addr + 1 < p.capacity) ∧
      (inRange p.capacity w addr = false ↔ p.capacity - 1 ≤ addr)) ∧
    (∀ (s : State) (r : Request), s.params = p → r.req = true → accessWidth r = w → r.addr = addr →
      ∃ t, exec (decodeRequest r) s = .next t ∧ (t.response s.port).ack = true ∧
        (inRange p.capacity w addr = true → (t.response s.port).err = false) ∧
        (inRange p.capacity w addr = false → t.response s.port = ⟨true, true, 0#16, highestTouched w addr⟩))

/-- R131: a request raises OutOfRange exactly when it is a request and its highest touched address reaches CAPACITY,
whatever `we`, `wdata`, the array and the other port hold. NOP never raises it. -/
def Obligations.OutOfRangeExactlyWhenHiReachesCapacity : Prop :=
  ∀ (s : State) (r : Request), ∃ t, exec (decodeRequest r) s = .next t ∧
    ((t.response s.port).err = true ↔
      r.req = true ∧ s.params.capacity ≤ r.addr + (if r.w16 then 1 else 0))

/-- R133 and R46: a request that fails the check writes no byte and reads none (no draw is made), its port's response is
(1, 1, 0, hi), and nothing else changes. -/
def Obligations.FailedRequestHasNoOtherEffect : Prop :=
  ∀ (s : State) (r : Request), r.req = true → s.params.capacity ≤ highestTouched (accessWidth r) r.addr →
    ∃ t, exec (decodeRequest r) s = .next t ∧
      t.response s.port = ⟨true, true, 0#16, highestTouched (accessWidth r) r.addr⟩ ∧
      t.mem = s.mem ∧ t.draws = s.draws ∧ SameOutside s.port s t

/-- R47: a 16-bit access at the topmost address has hi = 2^AW, raises OutOfRange and touches no byte, `mem[0]` included; no
out-of-range address is reduced in any way, the error carries it exactly. -/
def Obligations.AddressesNeverWrap : Prop :=
  ∀ (s : State) (r : Request), s.params.Legal → r.req = true → r.Representable s.params.aw →
    (r.w16 = true → r.addr = 2 ^ s.params.aw - 1 →
      ∃ t, exec (decodeRequest r) s = .next t ∧ (t.response s.port).err = true ∧
        (t.response s.port).errAddr = 2 ^ s.params.aw ∧ ∀ x, t.mem.read x = s.mem.read x) ∧
    (s.params.capacity ≤ r.addr →
      ∃ t, exec (decodeRequest r) s = .next t ∧ (t.response s.port).err = true ∧
        (t.response s.port).errAddr = r.addr + (if r.w16 then 1 else 0) ∧ ∀ x, t.mem.read x = s.mem.read x)

/-- R132: after an edge a failed request's `err_addr` output is its highest touched address, as a value of AW+1 bits, and
`capacity_o` is CAPACITY; the base address of a 16-bit request is `err_addr - 1`. On either port. -/
def Obligations.ErrorRecordsHighestTouchedAddress : Prop :=
  ∀ (s : State) (ra rb : Request) (rest : List Stimulus), s.Presents false ra rb rest →
    ∃ t, step s = .next t ∧ t.outputs.capacity = s.params.capacity ∧
      (ra.req = true → s.params.capacity ≤ highestTouched (accessWidth ra) ra.addr →
        t.outputs.a.err = true ∧ t.outputs.a.errAddr = highestTouched (accessWidth ra) ra.addr ∧
        t.outputs.a.errAddr < 2 ^ (s.params.aw + 1) ∧ (ra.w16 = true → ra.addr = t.outputs.a.errAddr - 1)) ∧
      (rb.req = true → s.params.capacity ≤ highestTouched (accessWidth rb) rb.addr →
        t.outputs.b.err = true ∧ t.outputs.b.errAddr = highestTouched (accessWidth rb) rb.addr ∧
        t.outputs.b.errAddr < 2 ^ (s.params.aw + 1) ∧ (rb.w16 = true → rb.addr = t.outputs.b.errAddr - 1))

/-- R140 and R44: every request on either port performs at every in-range address, odd or even: it is acknowledged without
error, a store stores its bytes, a load returns the bytes that are there. -/
def Obligations.EveryInRangeRequestIsPerformed : Prop :=
  ∀ (s : State) (p : Port) (r : Request), r.req = true → highestTouched (accessWidth r) r.addr < s.params.capacity →
    ∃ t, exec (decodeRequest r) (s.serve p) = .next t ∧ (t.response p).ack = true ∧ (t.response p).err = false ∧
      (r.we = true → ∀ x, touches (accessWidth r) r.addr x = true → t.mem.read x = some (storedByte r x)) ∧
      (r.we = false → ∀ x v, touches (accessWidth r) r.addr x = true → s.mem.read x = some v →
        (if x = r.addr then lane0 (t.response p).rdata else lane1 (t.response p).rdata) = v)

/-! ## The five operations: what each does, and what it leaves alone -/

/-- NOP (R120) completes in every state: the idle response on its port, no access, nothing else changed. -/
def Obligations.NopGivesTheIdleResponseOnly : Prop :=
  ∀ (s : State) (r : Request), r.req = false →
    decodeRequest r = .nop ∧
    ∃ t, exec .nop s = .next t ∧ t.response s.port = ⟨false, false, 0#16, 0⟩ ∧
      t.mem = s.mem ∧ t.draws = s.draws ∧ SameOutside s.port s t

/-- LOAD8 (R110) completes at every in-range address: the byte in lane 0, zeros in lane 1. A byte never written gives this
load's draw in lane 0 (U1). It changes no byte and nothing but its own response and the draw counter. -/
def Obligations.Load8ReturnsTheByteZeroExtended : Prop :=
  ∀ (s : State) (addr : Nat), addr < s.params.capacity →
    ∃ t, exec (.load8 addr) s = .next t ∧
      (t.response s.port).ack = true ∧ (t.response s.port).err = false ∧ (t.response s.port).errAddr = 0 ∧
      (t.response s.port).rdata.toNat < 256 ∧
      (∀ v, s.mem.read addr = some v → (t.response s.port).rdata.toNat = v.toNat) ∧
      (s.mem.read addr = none →
        (t.response s.port).rdata.toNat = (Config.unwrittenByte s.draws addr).toNat) ∧
      (∀ x, t.mem.read x = s.mem.read x) ∧ t.draws = s.draws + 1 ∧ SameOutside s.port s t

/-- LOAD16 (R111) completes where `addr + 1 < CAPACITY`: `mem[addr]` in lane 0, `mem[addr + 1]` in lane 1; each byte never
written is a draw of its own (U1). It changes no byte and nothing but its own response and the draw counter. -/
def Obligations.Load16ReturnsLowByteFirst : Prop :=
  ∀ (s : State) (addr : Nat), addr + 1 < s.params.capacity →
    ∃ t, exec (.load16 addr) s = .next t ∧
      (t.response s.port).ack = true ∧ (t.response s.port).err = false ∧ (t.response s.port).errAddr = 0 ∧
      (∀ v, s.mem.read addr = some v → (t.response s.port).rdata.toNat % 256 = v.toNat) ∧
      (s.mem.read addr = none →
        (t.response s.port).rdata.toNat % 256 = (Config.unwrittenByte s.draws addr).toNat) ∧
      (∀ v, s.mem.read (addr + 1) = some v → (t.response s.port).rdata.toNat / 256 = v.toNat) ∧
      (s.mem.read (addr + 1) = none →
        (t.response s.port).rdata.toNat / 256 = (Config.unwrittenByte s.draws (addr + 1)).toNat) ∧
      (∀ x, t.mem.read x = s.mem.read x) ∧ t.draws = s.draws + 1 ∧ SameOutside s.port s t

/-- STORE8 (R100) completes at every in-range address: exactly one byte changes, every other byte reads as before, the
response is OK. Any request with `req = 1, we = 1, w16 = 0` is this store, with `wdata[15:8]` ignored. -/
def Obligations.Store8WritesExactlyOneByte : Prop :=
  ∀ (s : State) (addr : Nat) (data hi : Byte), addr < s.params.capacity →
    decodeRequest { req := true, we := true, w16 := false, addr, wdata := joinLanes hi data } = .store8 addr data ∧
    ∃ t, exec (.store8 addr data) s = .next t ∧ t.response s.port = ⟨true, false, 0#16, 0⟩ ∧
      t.mem.read addr = some data ∧ (∀ x, x ≠ addr → t.mem.read x = s.mem.read x) ∧
      t.draws = s.draws ∧ SameOutside s.port s t

/-- STORE16 (R101) completes where `addr + 1 < CAPACITY`: the low-order byte at `addr`, the high-order byte at `addr + 1`,
every other byte reads as before, the response is OK. -/
def Obligations.Store16WritesLowByteFirst : Prop :=
  ∀ (s : State) (addr : Nat) (data : Half), addr + 1 < s.params.capacity →
    ∃ t, exec (.store16 addr data) s = .next t ∧ t.response s.port = ⟨true, false, 0#16, 0⟩ ∧
      t.mem.read addr = some (BitVec.ofNat 8 (data.toNat % 256)) ∧
      t.mem.read (addr + 1) = some (BitVec.ofNat 8 (data.toNat / 256)) ∧
      (∀ x, x ≠ addr → x ≠ addr + 1 → t.mem.read x = s.mem.read x) ∧
      t.draws = s.draws ∧ SameOutside s.port s t

/-! ## Byte order, widths, repetition -/

/-- R42: MemWrite and MemRead, for an address that has passed the check: one byte is `v[7:0]`; of two bytes the low-order
one lies at the lower address. -/
def Obligations.LowOrderByteLiesAtTheLowerAddress : Prop :=
  ∀ (s : State) (addr : Nat) (v : Half),
    (∀ x, (memWrite s.mem .byte addr v).read x =
      if x = addr then some (BitVec.ofNat 8 (v.toNat % 256)) else s.mem.read x) ∧
    (∀ x, (memWrite s.mem .half addr v).read x =
      if x = addr then some (BitVec.ofNat 8 (v.toNat % 256))
      else if x = addr + 1 then some (BitVec.ofNat 8 (v.toNat / 256)) else s.mem.read x) ∧
    (∀ lo, s.mem.read addr = some lo → (memRead s .byte addr).toNat = lo.toNat) ∧
    (∀ lo hi, s.mem.read addr = some lo → s.mem.read (addr + 1) = some hi →
      (memRead s .half addr).toNat = 256 * hi.toNat + lo.toNat)

/-- R43: the order is the same on every port and for every width. LOAD8 of a 16-bit store's two addresses gives its low and
its high byte; LOAD16 of two STORE8s gives `{y, x}`; a STORE16 overlaps a neighbouring one in the one byte they share. -/
def Obligations.MixedWidthAccessesSeeOneLayout : Prop :=
  ∀ (s : State) (p q o : Port) (addr : Nat) (u v : Half) (x y : Byte), addr + 2 < s.params.capacity →
    (∃ s1 s2 s3, exec (.store16 addr v) (s.serve p) = .next s1 ∧
      exec (.load8 addr) (s1.serve q) = .next s2 ∧ (s2.response q).rdata.toNat = v.toNat % 256 ∧
      exec (.load8 (addr + 1)) (s1.serve o) = .next s3 ∧ (s3.response o).rdata.toNat = v.toNat / 256) ∧
    (∃ s1 s2 s3, exec (.store8 addr x) (s.serve p) = .next s1 ∧ exec (.store8 (addr + 1) y) (s1.serve q) = .next s2 ∧
      exec (.load16 addr) (s2.serve o) = .next s3 ∧ (s3.response o).rdata.toNat = 256 * y.toNat + x.toNat) ∧
    (∃ s1 s2, exec (.store16 addr u) (s.serve p) = .next s1 ∧ exec (.store16 (addr + 1) v) (s1.serve q) = .next s2 ∧
      s2.mem.read addr = some (lane0 u) ∧ s2.mem.read (addr + 1) = some (lane0 v) ∧
      s2.mem.read (addr + 2) = some (lane1 v))

/-- The round trips W1 and W2 of spec/95_test_vectors.md, on any two ports: a load after a store of the same width at the
same address gives the stored value, for every value. -/
def Obligations.LoadAfterStoreGivesTheStoredValue : Prop :=
  ∀ (s : State) (p q : Port) (addr : Nat) (d : Byte) (v : Half),
    (addr < s.params.capacity → ∃ t u, exec (.store8 addr d) (s.serve p) = .next t ∧
      exec (.load8 addr) (t.serve q) = .next u ∧ (u.response q).ack = true ∧ (u.response q).err = false ∧
      (u.response q).rdata = zext16 d) ∧
    (addr + 1 < s.params.capacity → ∃ t u, exec (.store16 addr v) (s.serve p) = .next t ∧
      exec (.load16 addr) (t.serve q) = .next u ∧ (u.response q).ack = true ∧ (u.response q).err = false ∧
      (u.response q).rdata = v)

/-- Repeating an access (R54): a load repeated with nothing between returns the same value when every byte it touches has
been written (a byte never written is a fresh draw each time, U1); a store repeated leaves the same array. -/
def Obligations.RepeatedAccessIsIdempotent : Prop :=
  ∀ (s : State) (r : Request), r.req = true →
    (∀ x, touches (accessWidth r) r.addr x = true → s.mem.read x ≠ none) →
    ∃ t u, exec (decodeRequest r) s = .next t ∧ exec (decodeRequest r) t = .next u ∧
      u.mem = t.mem ∧ u.response s.port = t.response s.port

/-- The ports are identical (R7, R41, R143): the same request has the same effect on the array and the same response on
either port. -/
def Obligations.BothPortsPerformAlike : Prop :=
  ∀ (s : State) (i : Instr), ∃ t u, exec i (s.serve .a) = .next t ∧ exec i (s.serve .b) = .next u ∧
    t.mem = u.mem ∧ t.a = u.b ∧ t.draws = u.draws ∧ t.b = s.b ∧ u.a = s.a

/-! ## One edge, both ports -/

/-- R58: a step at an edge is the rule's Edge procedure, written out independently in Machine/Reference.lean, for some draws
of the bytes never written: the array, both ports' responses, with and without reset. -/
def Obligations.StepIsTheEdgeProcedure : Prop :=
  ∀ (s : State) (rst : Bool) (ra rb : Request) (rest : List Stimulus), s.Presents rst ra rb rest →
    ∃ t freshA freshB, step s = .next t ∧ t.inputs = rest ∧ t.params = s.params ∧
      (fun x => t.mem.read x, t.a, t.b) =
        refEdge s.params.capacity freshA freshB (fun x => s.mem.read x) rst ra rb

/-- Within one edge A comes before B (R57, R159): B's load sees A's store; A's load does not see B's store; of two stores to
one byte B's remains, and a byte that only A's store names keeps A's value. -/
def Obligations.PortAComesBeforePortB : Prop :=
  ∀ (s : State) (ra rb : Request) (rest : List Stimulus), s.Presents false ra rb rest →
    ∃ t, step s = .next t ∧
      (∀ x, storesByte s.params.capacity rb x = true → t.mem.read x = some (storedByte rb x)) ∧
      (∀ x, storesByte s.params.capacity rb x = false → storesByte s.params.capacity ra x = true →
        t.mem.read x = some (storedByte ra x)) ∧
      (∀ x, storesByte s.params.capacity rb x = false → storesByte s.params.capacity ra x = false →
        t.mem.read x = s.mem.read x) ∧
      (rb.req = true → rb.we = false → rb.w16 = false → storesByte s.params.capacity ra rb.addr = true →
        t.b.rdata = zext16 (storedByte ra rb.addr)) ∧
      (∀ v, ra.req = true → ra.we = false → ra.w16 = false → ra.addr < s.params.capacity →
        s.mem.read ra.addr = some v → t.a.rdata = zext16 v)

/-- R53: a 16-bit access is one indivisible step. A LOAD16 of port B sees both bytes of port A's STORE16 of the same edge or,
on bytes it did not name, what was there; a LOAD16 of port A sees none of port B's. At every address, aligned or not. -/
def Obligations.SixteenBitAccessIsAtomic : Prop :=
  ∀ (s : State) (ra rb : Request) (rest : List Stimulus), s.Presents false ra rb rest →
    ∃ t, step s = .next t ∧
      (∀ lo hi, rb.req = true → rb.we = false → rb.w16 = true → rb.addr + 1 < s.params.capacity →
        t.mem.read rb.addr = some lo → t.mem.read (rb.addr + 1) = some hi → t.b.rdata = joinLanes hi lo) ∧
      (∀ lo hi, ra.req = true → ra.we = false → ra.w16 = true → ra.addr + 1 < s.params.capacity →
        s.mem.read ra.addr = some lo → s.mem.read (ra.addr + 1) = some hi → t.a.rdata = joinLanes hi lo) ∧
      (decodeRequest ra = .store16 rb.addr ra.wdata → decodeRequest rb = .load16 rb.addr →
        rb.addr + 1 < s.params.capacity → t.b.rdata = ra.wdata)

/-- R135: an error on one port neither suppresses nor changes the other port's request: it does what it does when the
failing port is idle. Both may fail at one edge. -/
def Obligations.ErrorsOfThePortsAreIndependent : Prop :=
  ∀ (s : State) (ra rb : Request) (rest : List Stimulus), s.Presents false ra rb rest →
    (ra.req = true → s.params.capacity ≤ highestTouched (accessWidth ra) ra.addr →
      ∃ t u, step s = .next t ∧
        step { s with inputs := .edge { rst := .driven false, a := .driven Request.idle, b := .driven rb } :: rest } =
          .next u ∧
        t.a = Response.outOfRange (highestTouched (accessWidth ra) ra.addr) ∧ t.b = u.b ∧ t.mem = u.mem) ∧
    (rb.req = true → s.params.capacity ≤ highestTouched (accessWidth rb) rb.addr →
      ∃ t u, step s = .next t ∧
        step { s with inputs := .edge { rst := .driven false, a := .driven ra, b := .driven Request.idle } :: rest } =
          .next u ∧
        t.b = Response.outOfRange (highestTouched (accessWidth rb) rb.addr) ∧ t.a = u.a ∧ t.mem = u.mem)

/-- The port assignment does not matter where no byte is stored by one port and accessed by the other (R159): swapping the
two requests gives the same bytes, and swapped responses where every byte the requests touch has been written. -/
def Obligations.NonOverlappingRequestsMaySwapPorts : Prop :=
  ∀ (s : State) (ra rb : Request) (rest : List Stimulus), s.Presents false ra rb rest →
    (∀ x, storesByte s.params.capacity ra x = true → accessesByte s.params.capacity rb x = false) →
    (∀ x, storesByte s.params.capacity rb x = true → accessesByte s.params.capacity ra x = false) →
    ∃ t u, step s = .next t ∧
      step { s with inputs := .edge { rst := .driven false, a := .driven rb, b := .driven ra } :: rest } = .next u ∧
      (∀ x, t.mem.read x = u.mem.read x) ∧
      ((∀ x, accessesByte s.params.capacity ra x = true → s.mem.read x ≠ none) → t.a = u.b) ∧
      ((∀ x, accessesByte s.params.capacity rb x = true → s.mem.read x ≠ none) → t.b = u.a)

/-- R157: each port's request is accepted at every edge without reset, back to back and with no wait: the edge completes,
each port that presented a request has its response at once, a port that presented none has none, and the next edge's inputs
are the next to be taken. -/
def Obligations.EveryEdgeAcceptsOneRequestPerPort : Prop :=
  ∀ (s : State) (ra rb : Request) (rest : List Stimulus), s.Presents false ra rb rest →
    ∃ t, step s = .next t ∧ t.a.ack = ra.req ∧ t.b.ack = rb.req ∧ t.inputs = rest

/-- R156: the next edge replaces a response, by the idle one where no request is sampled; nothing of the earlier response is
left, so two states that differ only in their response registers step to one state. -/
def Obligations.ResponseIsReplacedAtTheNextEdge : Prop :=
  ∀ (s : State) (a' b' : Response) (rst : Bool) (ra rb : Request) (rest : List Stimulus), s.Presents rst ra rb rest →
    ∃ t, step s = .next t ∧ step { s with a := a', b := b' } = .next t ∧
      (ra.req = false → t.a = ⟨false, false, 0#16, 0⟩) ∧ (rb.req = false → t.b = ⟨false, false, 0#16, 0⟩)

/-- The responses after any edge, from any state whatever its registers held, are one of the tuples of R79, within their
widths (R24, R25, R153). -/
def Obligations.ResponsesAreDefinedAfterEveryEdge : Prop :=
  ∀ (s : State) (rst : Bool) (ra rb : Request) (rest : List Stimulus), s.Presents rst ra rb rest →
    ∃ t, step s = .next t ∧ t.a.Coherent s.params ∧ t.b.Coherent s.params

/-! ## Reset, power, and what the model refuses -/

/-- R151 and R152: at an edge with `rst = 1` both ports' responses become idle and both requests are discarded, whatever
they are: no byte changes, no draw is made, no error is raised, and nothing else changes. -/
def Obligations.ResetClearsResponsesAndDiscardsRequests : Prop :=
  ∀ (s : State) (ra rb : Request) (rest : List Stimulus), s.Presents true ra rb rest →
    step s = .next { s with a := ⟨false, false, 0#16, 0⟩, b := ⟨false, false, 0#16, 0⟩, inputs := rest }

/-- The state after reset (R32): both responses idle and `capacity_o` = CAPACITY. That nothing has been stored is the
spec's unspecified array in this model's form (log 2), and the parameters are the reference configuration, the model's choice
(log 1). -/
def Obligations.ResetStateIsAsTheSpecSays : Prop :=
  State.reset.a = ⟨false, false, 0#16, 0⟩ ∧ State.reset.b = ⟨false, false, 0#16, 0⟩ ∧
  (∀ x, State.reset.mem.read x = none) ∧ State.reset.outputs.capacity = State.reset.params.capacity ∧
  State.reset.params = { aw := 16, capacity := 2 ^ 16 }

/-- A loss of power leaves every byte unspecified and the parameters as they are (R145, R23). That it is a step of its own is
the model's choice (log 9). -/
def Obligations.PowerLossForgetsEveryByte : Prop :=
  ∀ (s : State) (rest : List Stimulus), s.params.Legal → s.inputs = .powerCycle :: rest →
    ∃ t, step s = .next t ∧ (∀ x, t.mem.read x = none) ∧ t.params = s.params ∧ t.inputs = rest ∧
      s.draws < t.draws ∧ t.a.errAddr < 2 ^ (s.params.aw + 1) ∧ t.b.errAddr < 2 ^ (s.params.aw + 1)

/-- An input that is not a stable 0 or 1 at an edge is refused (R161, U7, D20). That it is refused at every edge, also where
the pin would be ignored and at an edge with `rst = 1`, and by one name for all pins, is the model's reading (log 6). -/
def Obligations.UnstableInputIsRefused : Prop :=
  ∀ (s : State) (e : EdgeInputs) (rest : List Stimulus), s.params.Legal → s.inputs = .edge e :: rest →
    e.rst = .unstable ∨ e.a = .unstable ∨ e.b = .unstable → step s = .refused .unstableInput

/-- Parameters outside their legal values are refused (U6, R7), and so is an address that AW pins cannot carry (R75,
00_scope.md section 6; log 8). -/
def Obligations.UnrepresentableBlocksAndRequestsAreRefused : Prop :=
  ∀ (s : State),
    (¬ s.params.Legal → step s = .refused .illegalParameters) ∧
    (∀ rst ra rb rest, s.params.Legal →
      s.inputs = .edge { rst := .driven rst, a := .driven ra, b := .driven rb } :: rest →
      2 ^ s.params.aw ≤ ra.addr ∨ 2 ^ s.params.aw ≤ rb.addr → step s = .refused .unrepresentableAddress)

/-- When nothing is listed the next edge is an idle one: both responses become idle and nothing else changes. The model's
choice (log 4). -/
def Obligations.UnlistedEdgeIsIdle : Prop :=
  ∀ (s : State), s.params.Legal → s.inputs = [] →
    ∃ t, step s = .next t ∧ t.a = Response.idle ∧ t.b = Response.idle ∧ t.mem = s.mem ∧ t.params = s.params ∧
      t.inputs = [] ∧ t.draws = s.draws

/-! ## The whole machine -/

/-- R83: `capacity_o` is the constant CAPACITY at all times: in every state, and every step, of whatever kind, leaves it and
the parameters as they are. It fits AW+1 bits. -/
def Obligations.CapacityOutputIsConstant : Prop :=
  ∀ (s : State), s.outputs.capacity = s.params.capacity ∧
    (s.params.Legal → s.outputs.capacity < 2 ^ (s.params.aw + 1)) ∧
    (∀ t, step s = .next t → t.outputs.capacity = s.outputs.capacity ∧ t.params = s.params)

/-- R22: a byte changes only at an edge at which a store that passes the bounds check names it. No load, no NOP, no failed
request and no reset changes any byte, as long as the power stays on. -/
def Obligations.OnlyAStoreThatNamesAByteChangesIt : Prop :=
  ∀ (s t : State) (x : Nat), step s = .next t →
    (∀ e, s.inputs.head? = some e → e.leaves s.params.capacity x = true) → t.mem.read x = s.mem.read x

/-- A byte holds its value through any number of steps at which no store names it and the power stays on (R22, R145). -/
def Obligations.ByteHoldsUntilAStoreNamesIt : Prop :=
  ∀ (k : Nat) (s t : State) (x : Nat), Host.Core.run Sys2Proof.core k s = .next t →
    (∀ e ∈ s.inputs.take k, e.leaves s.params.capacity x = true) → t.mem.read x = s.mem.read x

/-- R158: a byte stored at an edge is what every load on either port at every later edge sees, however many edges lie
between, as long as no other store names the byte. -/
def Obligations.StoreIsSeenByEveryLaterLoad : Prop :=
  ∀ (s t u : State) (ra rb : Request) (rest : List Stimulus) (k x : Nat) (v : Byte), s.Presents false ra rb rest →
    (storesByte s.params.capacity rb x = true ∧ v = storedByte rb x) ∨
      (storesByte s.params.capacity rb x = false ∧ storesByte s.params.capacity ra x = true ∧ v = storedByte ra x) →
    step s = .next t → Host.Core.run Sys2Proof.core k t = .next u →
    (∀ e ∈ rest.take k, e.leaves s.params.capacity x = true) →
    ∀ (q : Port),
      (∃ r, exec (.load8 x) (u.serve q) = .next r ∧ (r.response q).ack = true ∧ (r.response q).rdata = zext16 v) ∧
      (x + 1 < s.params.capacity →
        ∃ r, exec (.load16 x) (u.serve q) = .next r ∧ (r.response q).ack = true ∧ lane0 (r.response q).rdata = v) ∧
      (1 ≤ x →
        ∃ r, exec (.load16 (x - 1)) (u.serve q) = .next r ∧ (r.response q).ack = true ∧
          lane1 (r.response q).rdata = v)

/-- Every step keeps the machine sound: legal parameters, an array in canonical form, and no byte outside `mem[0]` to
`mem[CAPACITY-1]` (R6, R7, R21). -/
def Obligations.StepKeepsTheStateSound : Prop :=
  ∀ (s t : State), s.Sound → step s = .next t → t.Sound

/-- The state after reset is sound. -/
def Obligations.ResetStateIsSound : Prop := State.reset.Sound

/-- A sound state whose next inputs are stable and representable, or none, or a loss of power, always steps, to a sound
state: the machine never stops of itself (R134, R157). -/
def Obligations.MachineNeverStopsOnStableInputs : Prop :=
  ∀ (s : State), s.Sound →
    (∀ e, s.inputs.head? = some (.edge e) → ∃ rst ra rb, e = ⟨.driven rst, .driven ra, .driven rb⟩ ∧
      ra.Representable s.params.aw ∧ rb.Representable s.params.aw) →
    ∃ t, step s = .next t ∧ t.Sound
end

