-- ==== Sys2Proof/Laws/Decode.lean ====
section
/-! SUPPORT. Where each field of a request stands in its packed word (R71), in arithmetic. -/

namespace Sys2Proof

theorem bitNat_lt (b : Bool) : bitNat b < 2 := by cases b <;> decide

@[simp] theorem bitNat_beq_one (b : Bool) : (bitNat b == 1) = b := by cases b <;> rfl

section
variable {aw : Nat} {r : Request}

theorem pack_split (aw : Nat) (r : Request) :
    pack aw r = (bitNat r.req + 2 * bitNat r.we + 4 * bitNat r.w16) +
      8 * (r.addr + 2 ^ aw * r.wdata.toNat) := by
  rw [pack, show 2 ^ (aw + 3) = 8 * 2 ^ aw by rw [pow_add]; omega, Nat.mul_assoc, Nat.mul_add]
  omega

theorem pack_lt (h : r.Representable aw) : pack aw r < 2 ^ requestBits aw := by
  have hw := r.wdata.isLt
  have h1 := bitNat_lt r.req
  have h2 := bitNat_lt r.we
  have h3 := bitNat_lt r.w16
  have hsum : r.addr + 2 ^ aw * r.wdata.toNat < 2 ^ aw * 2 ^ 16 := by
    calc r.addr + 2 ^ aw * r.wdata.toNat < 2 ^ aw + 2 ^ aw * r.wdata.toNat := by
          exact Nat.add_lt_add_right h _
      _ = 2 ^ aw * (r.wdata.toNat + 1) := by rw [Nat.mul_add]; omega
      _ ≤ 2 ^ aw * 2 ^ 16 := Nat.mul_le_mul_left _ hw
  have hbits : 2 ^ requestBits aw = 8 * (2 ^ aw * 2 ^ 16) := by
    rw [requestBits, show aw + 19 = 3 + (aw + 16) by omega, pow_add, pow_add]
    norm_num
  rw [pack_split, hbits]
  omega

theorem pack_req (aw : Nat) (r : Request) : bitField 0 1 (pack aw r) = bitNat r.req := by
  have := bitNat_lt r.req
  rw [pack_split]
  simp only [bitField, pow_zero, Nat.div_one, pow_one]
  omega

theorem pack_we (aw : Nat) (r : Request) : bitField 1 1 (pack aw r) = bitNat r.we := by
  have := bitNat_lt r.req
  have := bitNat_lt r.we
  rw [pack_split]
  simp only [bitField, pow_one]
  omega

theorem pack_w16 (aw : Nat) (r : Request) : bitField 2 1 (pack aw r) = bitNat r.w16 := by
  have := bitNat_lt r.req
  have := bitNat_lt r.we
  have := bitNat_lt r.w16
  rw [pack_split]
  simp only [bitField, pow_one, show (2 : Nat) ^ 2 = 4 from rfl]
  omega

theorem pack_div_eight (aw : Nat) (r : Request) : pack aw r / 8 = r.addr + 2 ^ aw * r.wdata.toNat := by
  have := bitNat_lt r.req
  have := bitNat_lt r.we
  have := bitNat_lt r.w16
  rw [pack_split]
  omega

theorem pack_addr (h : r.Representable aw) : bitField 3 aw (pack aw r) = r.addr := by
  rw [bitField, show (2 : Nat) ^ 3 = 8 from rfl, pack_div_eight, Nat.add_mul_mod_self_left, Nat.mod_eq_of_lt h]

theorem pack_wdata (h : r.Representable aw) : bitField (aw + 3) 16 (pack aw r) = r.wdata.toNat := by
  rw [bitField, show aw + 3 = 3 + aw by omega, pow_add, ← Nat.div_div_eq_div_mul,
    show (2 : Nat) ^ 3 = 8 from rfl, pack_div_eight, Nat.add_mul_div_left _ _ (by positivity), Nat.div_eq_of_lt h,
    Nat.zero_add, Nat.mod_eq_of_lt r.wdata.isLt]

end

theorem unpack_representable (aw w : Nat) : (unpack aw w).Representable aw := Nat.mod_lt _ (by positivity)

end Sys2Proof
end

