-- ==== Sys2Proof/Laws/Operands.lean ====
section
/-! SUPPORT. The lanes of a data bus, the highest touched address and the bounds check, in plain arithmetic. -/

namespace Sys2Proof.Machine

@[simp] theorem highestTouched_byte (addr : Nat) : highestTouched .byte addr = addr := rfl

@[simp] theorem highestTouched_half (addr : Nat) : highestTouched .half addr = addr + 1 := rfl

theorem inRange_eq_true {capacity addr : Nat} {w : Width} :
    inRange capacity w addr = true ↔ highestTouched w addr < capacity := by
  simp [inRange]

theorem inRange_eq_false {capacity addr : Nat} {w : Width} :
    inRange capacity w addr = false ↔ capacity ≤ highestTouched w addr := by
  simp [inRange]

theorem touches_eq_true {w : Width} {addr x : Nat} :
    touches w addr x = true ↔ addr ≤ x ∧ x ≤ highestTouched w addr := by
  simp [touches]

theorem touches_eq_false {w : Width} {addr x : Nat} :
    touches w addr x = false ↔ x < addr ∨ highestTouched w addr < x := by
  rw [← Bool.not_eq_true, touches_eq_true]
  omega

/-- `{hi, lo}` bit by bit: `lo` is bits 7:0 (R8). -/
theorem getLsbD_joinLanes (hi lo : Byte) (i : Nat) :
    (joinLanes hi lo).getLsbD i = if i < 8 then lo.getLsbD i else hi.getLsbD (i - 8) := BitVec.getLsbD_append

/-- `{hi, lo}` as a number. -/
theorem toNat_joinLanes (hi lo : Byte) : (joinLanes hi lo).toNat = 256 * hi.toNat + lo.toNat := by
  have h : (joinLanes hi lo).toNat = hi.toNat <<< 8 ||| lo.toNat := BitVec.toNat_append ..
  rw [h, Nat.shiftLeft_eq, Nat.mul_comm]
  exact (Nat.two_pow_add_eq_or_of_lt lo.isLt hi.toNat).symm

theorem toNat_lane0 (v : Half) : (lane0 v).toNat = v.toNat % 256 := by
  simp [lane0, BitVec.extractLsb'_toNat]

theorem toNat_lane1 (v : Half) : (lane1 v).toNat = v.toNat / 256 := by
  have := v.isLt
  simp [lane1, BitVec.extractLsb'_toNat, Nat.shiftRight_eq_div_pow]
  omega

@[simp] theorem lane0_joinLanes (hi lo : Byte) : lane0 (joinLanes hi lo) = lo := by
  apply BitVec.eq_of_toNat_eq
  have := lo.isLt
  rw [toNat_lane0, toNat_joinLanes]
  omega

@[simp] theorem lane1_joinLanes (hi lo : Byte) : lane1 (joinLanes hi lo) = hi := by
  apply BitVec.eq_of_toNat_eq
  have := lo.isLt
  rw [toNat_lane1, toNat_joinLanes]
  omega

@[simp] theorem joinLanes_lanes (v : Half) : joinLanes (lane1 v) (lane0 v) = v := by
  apply BitVec.eq_of_toNat_eq
  rw [toNat_joinLanes, toNat_lane0, toNat_lane1]
  omega

@[simp] theorem lane0_zext16 (v : Byte) : lane0 (zext16 v) = v := lane0_joinLanes ..

@[simp] theorem lane1_zext16 (v : Byte) : lane1 (zext16 v) = 0#8 := lane1_joinLanes ..

end Sys2Proof.Machine
end

