-- ==== Sys2Proof/Laws/Memory.lean ====
section
/-! SUPPORT. The laws of the array: read after write, a write leaves every other byte alone, and every write keeps the
canonical form and the bound. -/

namespace Sys2Proof.Machine

@[simp] theorem read_nil (a : Nat) : Memory.read [] a = none := rfl

theorem read_cons (k : Nat) (v : Byte) (rest : Memory) (a : Nat) :
    Memory.read ((k, v) :: rest) a = if k = a then some v else Memory.read rest a := rfl

theorem read_write_same (m : Memory) (a : Nat) (v : Byte) : (m.write a v).read a = some v := by
  induction m with
  | nil => simp [Memory.write, Memory.read]
  | cons c rest ih =>
    obtain ⟨k, w⟩ := c
    by_cases hlt : a < k
    · simp [Memory.write, Memory.read, hlt]
    · by_cases heq : a = k
      · simp [Memory.write, Memory.read, heq]
      · simp [Memory.write, Memory.read, hlt, heq, Ne.symm heq, ih]

theorem read_write_other (m : Memory) {a b : Nat} (v : Byte) (h : b ≠ a) : (m.write a v).read b = m.read b := by
  induction m with
  | nil => simp [Memory.write, Memory.read, h.symm]
  | cons c rest ih =>
    obtain ⟨k, w⟩ := c
    by_cases hlt : a < k
    · simp [Memory.write, Memory.read, hlt, h.symm]
    · by_cases heq : a = k
      · subst heq; simp [Memory.write, Memory.read, h.symm]
      · simp [Memory.write, Memory.read, hlt, heq, ih]

/-- One read of one write, both cases at once. -/
theorem read_write (m : Memory) (a b : Nat) (v : Byte) :
    (m.write a v).read b = if b = a then some v else m.read b := by
  split
  · next h => rw [h, read_write_same]
  · next h => exact read_write_other m v h

/-- Every cell after a write is the written one or an old one. -/
theorem mem_write {m : Memory} {a : Nat} {v : Byte} {c : Host.Cell} (h : c ∈ m.write a v) : c = (a, v) ∨ c ∈ m := by
  induction m with
  | nil => simpa [Memory.write] using h
  | cons d rest ih =>
    obtain ⟨k, w⟩ := d
    by_cases hlt : a < k
    · simpa [Memory.write, hlt] using h
    · by_cases heq : a = k
      · subst heq
        simp only [Memory.write, lt_irrefl, if_false, if_true, List.mem_cons] at h
        rcases h with h | h
        · exact .inl h
        · exact .inr (List.mem_cons_of_mem _ h)
      · simp only [Memory.write, hlt, heq, if_false, List.mem_cons] at h
        rcases h with h | h
        · exact .inr (by simp [h])
        · exact (ih h).imp id (List.mem_cons_of_mem _)

theorem write_wf {m : Memory} (a : Nat) (v : Byte) (h : m.wf) : (m.write a v).wf := by
  induction m with
  | nil => simp [Memory.write]
  | cons d rest ih =>
    obtain ⟨k, w⟩ := d
    obtain ⟨hk, hrest⟩ := List.pairwise_cons.1 h
    by_cases hlt : a < k
    · simp only [Memory.write, hlt, if_true]
      refine List.pairwise_cons.2 ⟨fun c hc => ?_, h⟩
      rcases List.mem_cons.1 hc with rfl | hc
      · exact hlt
      · exact lt_trans hlt (hk c hc)
    · by_cases heq : a = k
      · subst heq
        simp only [Memory.write, lt_irrefl, if_false, if_true]
        exact List.pairwise_cons.2 ⟨hk, hrest⟩
      · simp only [Memory.write, hlt, heq, if_false]
        refine List.pairwise_cons.2 ⟨fun c hc => ?_, ih hrest⟩
        rcases mem_write hc with rfl | hc
        · show k < a
          omega
        · exact hk c hc

theorem write_within {m : Memory} {capacity a : Nat} (v : Byte) (h : m.Within capacity) (ha : a < capacity) :
    (m.write a v).Within capacity := fun c hc => by
  rcases mem_write hc with rfl | hc
  · exact ha
  · exact h c hc

/-- A read of a canonical array finds exactly its cells. -/
theorem read_none_of_within {m : Memory} {capacity a : Nat} (h : m.Within capacity) (ha : capacity ≤ a) :
    m.read a = none := by
  induction m with
  | nil => rfl
  | cons d rest ih =>
    obtain ⟨k, w⟩ := d
    have hk : k < capacity := h (k, w) (List.mem_cons_self ..)
    have hne : k ≠ a := by omega
    simp only [read_cons, hne, if_false]
    exact ih fun c hc => h c (List.mem_cons_of_mem _ hc)

theorem read_memWrite_byte (m : Memory) (a b : Nat) (v : Half) :
    (memWrite m .byte a v).read b = if b = a then some (lane0 v) else m.read b := read_write ..

theorem read_memWrite_half (m : Memory) (a b : Nat) (v : Half) :
    (memWrite m .half a v).read b =
      if b = a + 1 then some (lane1 v) else if b = a then some (lane0 v) else m.read b := by
  simp only [memWrite, read_write]

/-- A store leaves every byte it does not touch as it was (R54). -/
theorem read_memWrite_untouched (m : Memory) (w : Width) {a b : Nat} (v : Half) (h : touches w a b = false) :
    (memWrite m w a v).read b = m.read b := by
  cases w
  · have hne : b ≠ a := by rw [touches_eq_false, highestTouched_byte] at h; omega
    simp [read_memWrite_byte, hne]
  · have hne : b ≠ a ∧ b ≠ a + 1 := by rw [touches_eq_false, highestTouched_half] at h; omega
    simp [read_memWrite_half, hne.1, hne.2]

theorem memWrite_wf {m : Memory} (w : Width) (a : Nat) (v : Half) (h : m.wf) : (memWrite m w a v).wf := by
  cases w
  · exact write_wf _ _ h
  · exact write_wf _ _ (write_wf _ _ h)

theorem memWrite_within {m : Memory} {capacity : Nat} {w : Width} {a : Nat} (v : Half) (h : m.Within capacity)
    (ha : inRange capacity w a = true) : (memWrite m w a v).Within capacity := by
  cases w
  · exact write_within _ h (inRange_eq_true.1 ha)
  · have hi : a + 1 < capacity := inRange_eq_true.1 ha
    exact write_within _ (write_within _ h (by omega)) hi

end Sys2Proof.Machine
end

