-- ==== Sys2Proof/Laws/State.lean ====
section
/-! SUPPORT. One lemma per field per update of State, so that no later proof unfolds a record update. -/

namespace Sys2Proof.Machine

variable (s : State) (p q : Port) (r : Response)

@[simp] theorem serve_params : (s.serve p).params = s.params := rfl
@[simp] theorem serve_mem : (s.serve p).mem = s.mem := rfl
@[simp] theorem serve_a : (s.serve p).a = s.a := rfl
@[simp] theorem serve_b : (s.serve p).b = s.b := rfl
@[simp] theorem serve_port : (s.serve p).port = p := rfl
@[simp] theorem serve_inputs : (s.serve p).inputs = s.inputs := rfl
@[simp] theorem serve_draws : (s.serve p).draws = s.draws := rfl
@[simp] theorem serve_response : (s.serve p).response q = s.response q := rfl
@[simp] theorem serve_loadByte (x : Nat) : (s.serve p).loadByte x = s.loadByte x := rfl

@[simp] theorem setResponse_params : (s.setResponse p r).params = s.params := by cases p <;> rfl
@[simp] theorem setResponse_mem : (s.setResponse p r).mem = s.mem := by cases p <;> rfl
@[simp] theorem setResponse_port : (s.setResponse p r).port = s.port := by cases p <;> rfl
@[simp] theorem setResponse_inputs : (s.setResponse p r).inputs = s.inputs := by cases p <;> rfl
@[simp] theorem setResponse_draws : (s.setResponse p r).draws = s.draws := by cases p <;> rfl
@[simp] theorem setResponse_response_same : (s.setResponse p r).response p = r := by cases p <;> rfl

theorem setResponse_response_other (h : q ≠ p) : (s.setResponse p r).response q = s.response q := by
  cases p <;> cases q <;> first | rfl | exact absurd rfl h

@[simp] theorem setResponse_response_of_other :
    (s.setResponse p r).response p.other = s.response p.other := by
  cases p <;> rfl

@[simp] theorem respond_params : (s.respond r).params = s.params := setResponse_params ..
@[simp] theorem respond_mem : (s.respond r).mem = s.mem := setResponse_mem ..
@[simp] theorem respond_port : (s.respond r).port = s.port := setResponse_port ..
@[simp] theorem respond_inputs : (s.respond r).inputs = s.inputs := setResponse_inputs ..
@[simp] theorem respond_draws : (s.respond r).draws = s.draws := setResponse_draws ..
@[simp] theorem respond_response_same : (s.respond r).response s.port = r := setResponse_response_same ..
@[simp] theorem respond_response_of_other :
    (s.respond r).response s.port.other = s.response s.port.other := setResponse_response_of_other ..

@[simp] theorem response_a : s.response .a = s.a := rfl
@[simp] theorem response_b : s.response .b = s.b := rfl

@[simp] theorem resetEdge_params : (resetEdge s).params = s.params := rfl
@[simp] theorem resetEdge_mem : (resetEdge s).mem = s.mem := rfl
@[simp] theorem resetEdge_a : (resetEdge s).a = Response.idle := rfl
@[simp] theorem resetEdge_b : (resetEdge s).b = Response.idle := rfl
@[simp] theorem resetEdge_inputs : (resetEdge s).inputs = s.inputs := rfl
@[simp] theorem resetEdge_draws : (resetEdge s).draws = s.draws := rfl

end Sys2Proof.Machine
end

