-- ==== Sys2Proof/Laws/Exec.lean ====
section
/-! SUPPORT. What each shared operation and each instruction can do, said once. -/

namespace Sys2Proof.Machine

/-! ## The guarded access -/

theorem checked_in {w : Width} {addr : Nat} {s : State} (f : State → State)
    (h : highestTouched w addr < s.params.capacity) : checked w addr f s = f s := by
  rw [checked, inRange_eq_true.2 h]

theorem checked_out {w : Width} {addr : Nat} {s : State} (f : State → State)
    (h : s.params.capacity ≤ highestTouched w addr) :
    checked w addr f s = raiseOutOfRange (highestTouched w addr) s := by
  rw [checked, inRange_eq_false.2 h]

section
variable (w : Width) (addr hi : Nat) (v : Half) (s : State)

@[simp] theorem raiseOutOfRange_params : (raiseOutOfRange hi s).params = s.params := respond_params ..
@[simp] theorem raiseOutOfRange_mem : (raiseOutOfRange hi s).mem = s.mem := respond_mem ..
@[simp] theorem raiseOutOfRange_port : (raiseOutOfRange hi s).port = s.port := respond_port ..
@[simp] theorem raiseOutOfRange_inputs : (raiseOutOfRange hi s).inputs = s.inputs := respond_inputs ..
@[simp] theorem raiseOutOfRange_draws : (raiseOutOfRange hi s).draws = s.draws := respond_draws ..
@[simp] theorem raiseOutOfRange_response :
    (raiseOutOfRange hi s).response s.port = Response.outOfRange hi := respond_response_same ..
@[simp] theorem raiseOutOfRange_response_other :
    (raiseOutOfRange hi s).response s.port.other = s.response s.port.other := respond_response_of_other ..

@[simp] theorem performLoad_params : (performLoad w addr s).params = s.params := respond_params ..
@[simp] theorem performLoad_mem : (performLoad w addr s).mem = s.mem := respond_mem ..
@[simp] theorem performLoad_port : (performLoad w addr s).port = s.port := respond_port ..
@[simp] theorem performLoad_inputs : (performLoad w addr s).inputs = s.inputs := respond_inputs ..
@[simp] theorem performLoad_draws : (performLoad w addr s).draws = s.draws + 1 := respond_draws ..
@[simp] theorem performLoad_response :
    (performLoad w addr s).response s.port = Response.loaded (memRead s w addr) :=
  respond_response_same { s with draws := s.draws + 1 } _
@[simp] theorem performLoad_response_other :
    (performLoad w addr s).response s.port.other = s.response s.port.other :=
  respond_response_of_other { s with draws := s.draws + 1 } _

@[simp] theorem performStore_params : (performStore w addr v s).params = s.params := respond_params ..
@[simp] theorem performStore_mem : (performStore w addr v s).mem = memWrite s.mem w addr v := respond_mem ..
@[simp] theorem performStore_port : (performStore w addr v s).port = s.port := respond_port ..
@[simp] theorem performStore_inputs : (performStore w addr v s).inputs = s.inputs := respond_inputs ..
@[simp] theorem performStore_draws : (performStore w addr v s).draws = s.draws := respond_draws ..
@[simp] theorem performStore_response : (performStore w addr v s).response s.port = Response.stored :=
  respond_response_same { s with mem := memWrite s.mem w addr v } _
@[simp] theorem performStore_response_other :
    (performStore w addr v s).response s.port.other = s.response s.port.other :=
  respond_response_of_other { s with mem := memWrite s.mem w addr v } _

@[simp] theorem memRead_serve (p : Port) : memRead (s.serve p) w addr = memRead s w addr := by
  cases w <;> rfl

end

theorem loadByte_written {s : State} {x : Nat} {v : Byte} (h : s.mem.read x = some v) : s.loadByte x = v := by
  rw [State.loadByte, h]

/-! ## The instructions -/

section
variable (addr : Nat) (s : State)

theorem exec_nop : exec .nop s = .next (s.respond Response.idle) := rfl

theorem exec_load8 : exec (.load8 addr) s = .next (checked .byte addr (performLoad .byte addr) s) := rfl

theorem exec_load16 : exec (.load16 addr) s = .next (checked .half addr (performLoad .half addr) s) := rfl

theorem exec_store8 (data : Byte) :
    exec (.store8 addr data) s = .next (checked .byte addr (performStore .byte addr (zext16 data)) s) := rfl

theorem exec_store16 (data : Half) :
    exec (.store16 addr data) s = .next (checked .half addr (performStore .half addr data) s) := rfl

variable {addr s}

theorem exec_load8_in (h : addr < s.params.capacity) : exec (.load8 addr) s = .next (performLoad .byte addr s) := by
  rw [exec_load8, checked_in (w := .byte) _ h]

theorem exec_load16_in (h : addr + 1 < s.params.capacity) :
    exec (.load16 addr) s = .next (performLoad .half addr s) := by
  rw [exec_load16, checked_in (w := .half) _ h]

theorem exec_store8_in {data : Byte} (h : addr < s.params.capacity) :
    exec (.store8 addr data) s = .next (performStore .byte addr (zext16 data) s) := by
  rw [exec_store8, checked_in (w := .byte) _ h]

theorem exec_store16_in {data : Half} (h : addr + 1 < s.params.capacity) :
    exec (.store16 addr data) s = .next (performStore .half addr data s) := by
  rw [exec_store16, checked_in (w := .half) _ h]

end

/-- What an instruction can do, whole: nothing (NOP), the error, a load, or a store. -/
theorem exec_cases {i : Instr} {s t : State} (h : exec i s = .next t) :
    (i = .nop ∧ t = s.respond Response.idle) ∨
    ∃ w addr, i.access? = some (w, addr) ∧
      ((s.params.capacity ≤ highestTouched w addr ∧ t = raiseOutOfRange (highestTouched w addr) s) ∨
       (highestTouched w addr < s.params.capacity ∧ i.isStore = false ∧ t = performLoad w addr s) ∨
       (highestTouched w addr < s.params.capacity ∧ i.isStore = true ∧ ∃ v, t = performStore w addr v s)) := by
  have key : ∀ (w : Width) (addr : Nat) (f : State → State), t = checked w addr f s →
      (s.params.capacity ≤ highestTouched w addr ∧ t = raiseOutOfRange (highestTouched w addr) s) ∨
      (highestTouched w addr < s.params.capacity ∧ t = f s) := by
    intro w addr f ht
    rcases Nat.lt_or_ge (highestTouched w addr) s.params.capacity with hlt | hge
    · exact .inr ⟨hlt, by rw [ht, checked_in f hlt]⟩
    · exact .inl ⟨hge, by rw [ht, checked_out f hge]⟩
  cases i with
  | nop => rw [exec_nop] at h; cases h; exact .inl ⟨rfl, rfl⟩
  | load8 addr =>
    rw [exec_load8] at h; cases h
    rcases key .byte addr _ rfl with hc | ⟨hlt, hc⟩
    · exact .inr ⟨.byte, addr, rfl, .inl hc⟩
    · exact .inr ⟨.byte, addr, rfl, .inr (.inl ⟨hlt, rfl, hc⟩)⟩
  | load16 addr =>
    rw [exec_load16] at h; cases h
    rcases key .half addr _ rfl with hc | ⟨hlt, hc⟩
    · exact .inr ⟨.half, addr, rfl, .inl hc⟩
    · exact .inr ⟨.half, addr, rfl, .inr (.inl ⟨hlt, rfl, hc⟩)⟩
  | store8 addr data =>
    rw [exec_store8] at h; cases h
    rcases key .byte addr _ rfl with hc | ⟨hlt, hc⟩
    · exact .inr ⟨.byte, addr, rfl, .inl hc⟩
    · exact .inr ⟨.byte, addr, rfl, .inr (.inr ⟨hlt, rfl, _, hc⟩)⟩
  | store16 addr data =>
    rw [exec_store16] at h; cases h
    rcases key .half addr _ rfl with hc | ⟨hlt, hc⟩
    · exact .inr ⟨.half, addr, rfl, .inl hc⟩
    · exact .inr ⟨.half, addr, rfl, .inr (.inr ⟨hlt, rfl, _, hc⟩)⟩

/-- Every instruction answers a next state in every state: none faults, none is refused. -/
theorem exec_next (i : Instr) (s : State) : ∃ t, exec i s = .next t := by
  cases i <;> exact ⟨_, rfl⟩

/-- No instruction changes the parameters, the events to come or the port that is served. -/
theorem exec_fixed {i : Instr} {s t : State} (h : exec i s = .next t) :
    t.params = s.params ∧ t.inputs = s.inputs ∧ t.port = s.port := by
  rcases exec_cases h with ⟨-, rfl⟩ | ⟨w, addr, -, ⟨-, rfl⟩ | ⟨-, -, rfl⟩ | ⟨-, -, v, rfl⟩⟩ <;> simp

/-- No instruction changes the other port's response registers. -/
theorem exec_response_other {i : Instr} {s t : State} (h : exec i s = .next t) :
    t.response s.port.other = s.response s.port.other := by
  rcases exec_cases h with ⟨-, rfl⟩ | ⟨w, addr, -, ⟨-, rfl⟩ | ⟨-, -, rfl⟩ | ⟨-, -, v, rfl⟩⟩ <;> simp

/-- Every instruction keeps the array's canonical form. -/
theorem exec_wf {i : Instr} {s t : State} (h : exec i s = .next t) (hw : s.mem.wf) : t.mem.wf := by
  rcases exec_cases h with ⟨-, rfl⟩ | ⟨w, addr, -, ⟨-, rfl⟩ | ⟨-, -, rfl⟩ | ⟨-, -, v, rfl⟩⟩
  · simpa using hw
  · simpa using hw
  · simpa using hw
  · rw [performStore_mem]
    exact memWrite_wf w addr v hw

/-- No instruction stores outside `mem[0]` to `mem[CAPACITY-1]`. -/
theorem exec_within {i : Instr} {s t : State} (h : exec i s = .next t) (hw : s.mem.Within s.params.capacity) :
    t.mem.Within s.params.capacity := by
  rcases exec_cases h with ⟨-, rfl⟩ | ⟨w, addr, -, ⟨-, rfl⟩ | ⟨-, -, rfl⟩ | ⟨hlt, -, v, rfl⟩⟩
  · simpa using hw
  · simpa using hw
  · simpa using hw
  · rw [performStore_mem]
    exact memWrite_within v hw (inRange_eq_true.2 hlt)

/-- An instruction changes a byte only if it is a store that passes the check and touches it (R22). -/
theorem exec_read {i : Instr} {s t : State} {x : Nat} (h : exec i s = .next t)
    (hx : ∀ w addr, i.access? = some (w, addr) → i.isStore = true →
      highestTouched w addr < s.params.capacity → touches w addr x = false) :
    t.mem.read x = s.mem.read x := by
  rcases exec_cases h with ⟨-, rfl⟩ | ⟨w, addr, ha, ⟨-, rfl⟩ | ⟨-, -, rfl⟩ | ⟨hlt, hs, v, rfl⟩⟩
  · simp
  · simp
  · simp
  · rw [performStore_mem]
    exact read_memWrite_untouched _ _ _ (hx w addr ha hs hlt)

end Sys2Proof.Machine
end

