-- ==== Sys2Proof/Laws/Edge.lean ====
section
/-! SUPPORT. What one edge and one step can do, said once. -/

namespace Sys2Proof.Machine

@[simp] theorem andThen_next (s : State) (k : State → Host.Outcome State Fault Refusal) :
    andThen (.next s) k = k s := rfl

theorem andThen_eq_next {o : Host.Outcome State Fault Refusal} {k : State → Host.Outcome State Fault Refusal} {t : State}
    (h : andThen o k = .next t) : ∃ s, o = .next s ∧ k s = .next t := by
  cases o with
  | next s => exact ⟨s, rfl, h⟩
  | fault r => cases h
  | refused r => cases h

/-- An edge without reset is port A's instruction and then port B's, and both always complete (R57, R157). -/
theorem performEdge_next (ra rb : Request) (s : State) :
    ∃ s1 s2, exec (decodeRequest ra) (s.serve .a) = .next s1 ∧ exec (decodeRequest rb) (s1.serve .b) = .next s2 ∧
      performEdge ra rb s = .next (s2.serve .a) := by
  obtain ⟨s1, h1⟩ := exec_next (decodeRequest ra) (s.serve .a)
  obtain ⟨s2, h2⟩ := exec_next (decodeRequest rb) (s1.serve .b)
  refine ⟨s1, s2, h1, h2, ?_⟩
  simp [performEdge, performRequest, h1, h2]

/-- The edge at which every input is a stable value that the pins can carry. -/
theorem clockEdge_driven {rst : Bool} {ra rb : Request} {s : State} (ha : ra.Representable s.params.aw)
    (hb : rb.Representable s.params.aw) :
    clockEdge { rst := .driven rst, a := .driven ra, b := .driven rb } s =
      if rst then .next (resetEdge s) else performEdge ra rb s := by
  simp only [clockEdge]
  rw [if_pos ⟨ha, hb⟩]

/-- What an edge that answers a next state did, and what it was given. -/
theorem clockEdge_cases {e : EdgeInputs} {s t : State} (h : clockEdge e s = .next t) :
    ∃ rst ra rb, e = { rst := .driven rst, a := .driven ra, b := .driven rb } ∧
      ra.Representable s.params.aw ∧ rb.Representable s.params.aw ∧
      ((rst = true ∧ t = resetEdge s) ∨ (rst = false ∧ performEdge ra rb s = .next t)) := by
  obtain ⟨erst, ea, eb⟩ := e
  cases erst with
  | unstable => cases h
  | driven rst =>
    cases ea with
    | unstable => cases h
    | driven ra =>
      cases eb with
      | unstable => cases h
      | driven rb =>
        by_cases hr : ra.Representable s.params.aw ∧ rb.Representable s.params.aw
        · rw [clockEdge_driven hr.1 hr.2] at h
          refine ⟨rst, ra, rb, rfl, hr.1, hr.2, ?_⟩
          cases rst with
          | true => cases h; exact .inl ⟨rfl, rfl⟩
          | false => exact .inr ⟨rfl, h⟩
        · simp only [clockEdge, if_neg hr] at h
          cases h

/-- What a step that answers a next state did: an edge with the inputs listed first (an idle one when none is listed), or a
loss of power. -/
theorem step_cases {s t : State} (h : step s = .next t) :
    s.params.Legal ∧
    ((∃ e rest, (s.inputs = .edge e :: rest ∨ (s.inputs = [] ∧ e = EdgeInputs.idle ∧ rest = [])) ∧
        clockEdge e { s with inputs := rest } = .next t) ∨
     (∃ rest, s.inputs = .powerCycle :: rest ∧ t = powerUp s.params s.draws rest)) := by
  unfold step nextEvent at h
  by_cases hl : s.params.Legal
  · rw [if_pos hl] at h
    refine ⟨hl, ?_⟩
    rcases hi : s.inputs with _ | ⟨stim, rest⟩
    · rw [hi] at h
      have hs : { s with inputs := [] } = s := by cases s; cases hi; rfl
      exact .inl ⟨EdgeInputs.idle, [], .inr ⟨rfl, rfl, rfl⟩, by rw [hs]; exact h⟩
    · rw [hi] at h
      cases stim with
      | edge e => exact .inl ⟨e, rest, .inl rfl, h⟩
      | powerCycle => cases h; exact .inr ⟨rest, rfl, rfl⟩
  · rw [if_neg hl] at h
    cases h

end Sys2Proof.Machine
end

