-- ==== Sys2Proof/Laws/PerInstr.lean ====
section
/-! SUPPORT. Per instruction: the request that presents a well-formed instruction is one the pins can carry, and it selects
that instruction (R77). -/

namespace Sys2Proof.Laws.EncodeRequest

def Statement (i : Instr) : Prop :=
  ∀ aw, i.wellFormed aw = true → (encodeRequest i).Representable aw ∧ decodeRequest (encodeRequest i) = i

theorem nop : Statement .nop := fun aw _ => ⟨(by positivity : (0 : Nat) < 2 ^ aw), rfl⟩

theorem load8 (addr : Nat) : Statement (.load8 addr) := fun _ h => ⟨of_decide_eq_true h, rfl⟩

theorem load16 (addr : Nat) : Statement (.load16 addr) := fun _ h => ⟨of_decide_eq_true h, rfl⟩

theorem store8 (addr : Nat) (data : Byte) : Statement (.store8 addr data) := fun _ h => by
  refine ⟨of_decide_eq_true h, ?_⟩
  have hd : (data.setWidth 16).extractLsb' 0 8 = data := by
    apply BitVec.eq_of_toNat_eq
    have := data.isLt
    simp [BitVec.extractLsb'_toNat]
    omega
  simp [encodeRequest, decodeRequest, hd]

theorem store16 (addr : Nat) (data : Half) : Statement (.store16 addr data) := fun _ h =>
  ⟨of_decide_eq_true h, rfl⟩

end Sys2Proof.Laws.EncodeRequest
end

