-- ==== Sys2Proof/Laws/Request.lean ====
section
/-! SUPPORT. What one request does, in the terms of its own bits: which bytes it stores, what it answers. -/

namespace Sys2Proof.Machine

theorem accessesByte_eq_true {capacity : Nat} {r : Request} {x : Nat} :
    accessesByte capacity r x = true ↔
      r.req = true ∧ highestTouched (accessWidth r) r.addr < capacity ∧ touches (accessWidth r) r.addr x = true := by
  simp [accessesByte, inRange_eq_true, and_assoc]

theorem storesByte_eq_true {capacity : Nat} {r : Request} {x : Nat} :
    storesByte capacity r x = true ↔ r.we = true ∧ accessesByte capacity r x = true := by
  simp [storesByte]

/-- The byte multiplexer uses lane 0 only (R48). -/
theorem memWrite_byte_lane0 (m : Memory) (a : Nat) (v : Half) : memWrite m .byte a (zext16 (lane0 v)) = memWrite m .byte a v := by
  simp [memWrite]

/-- A store, seen byte by byte (R48, R49). -/
theorem read_memWrite (m : Memory) (r : Request) (x : Nat) :
    (memWrite m (accessWidth r) r.addr r.wdata).read x =
      if touches (accessWidth r) r.addr x then some (storedByte r x) else m.read x := by
  by_cases ht : touches (accessWidth r) r.addr x = true
  · rw [if_pos ht]
    rw [touches_eq_true] at ht
    cases hw : accessWidth r <;> rw [hw] at ht
    · have hx : x = r.addr := by rw [highestTouched_byte] at ht; omega
      subst hx
      simp [read_memWrite_byte, storedByte]
    · rw [read_memWrite_half]
      rw [highestTouched_half] at ht
      by_cases hx : x = r.addr
      · have : ¬ x = r.addr + 1 := by omega
        simp [storedByte, hx]
      · have : x = r.addr + 1 := by omega
        subst this
        simp [storedByte]
  · rw [if_neg ht]
    exact read_memWrite_untouched _ _ _ (by simpa using ht)

/-! ## A request, by its control bits (R77) -/

theorem exec_decode_idle {r : Request} (s : State) (h : r.req = false) :
    exec (decodeRequest r) s = .next (s.respond Response.idle) := by
  obtain ⟨req, we, w16, addr, wdata⟩ := r
  subst h
  rfl

theorem exec_decode_load {r : Request} (s : State) (h : r.req = true) (hw : r.we = false) :
    exec (decodeRequest r) s = .next (checked (accessWidth r) r.addr (performLoad (accessWidth r) r.addr) s) := by
  obtain ⟨req, we, w16, addr, wdata⟩ := r
  subst h hw
  cases w16 <;> rfl

theorem exec_decode_store {r : Request} (s : State) (h : r.req = true) (hw : r.we = true) :
    exec (decodeRequest r) s =
      .next (checked (accessWidth r) r.addr (performStore (accessWidth r) r.addr r.wdata) s) := by
  obtain ⟨req, we, w16, addr, wdata⟩ := r
  subst h hw
  cases w16
  · show exec (.store8 addr (lane0 wdata)) s = _
    rw [exec_store8]
    congr 2
    funext s
    simp only [performStore, memWrite_byte_lane0]
    rfl
  · rfl

/-- A request that fails the check: the error and nothing else (R133). -/
theorem exec_decode_out {r : Request} {s : State} (h : r.req = true)
    (hi : s.params.capacity ≤ highestTouched (accessWidth r) r.addr) :
    exec (decodeRequest r) s = .next (raiseOutOfRange (highestTouched (accessWidth r) r.addr) s) := by
  cases hw : r.we
  · rw [exec_decode_load s h hw, checked_out _ hi]
  · rw [exec_decode_store s h hw, checked_out _ hi]

theorem exec_decode_load_in {r : Request} {s : State} (h : r.req = true) (hw : r.we = false)
    (hi : highestTouched (accessWidth r) r.addr < s.params.capacity) :
    exec (decodeRequest r) s = .next (performLoad (accessWidth r) r.addr s) := by
  rw [exec_decode_load s h hw, checked_in _ hi]

theorem exec_decode_store_in {r : Request} {s : State} (h : r.req = true) (hw : r.we = true)
    (hi : highestTouched (accessWidth r) r.addr < s.params.capacity) :
    exec (decodeRequest r) s = .next (performStore (accessWidth r) r.addr r.wdata s) := by
  rw [exec_decode_store s h hw, checked_in _ hi]

/-- Every byte after a request: what the request stores there, or what was there (R22, R54). -/
theorem exec_decode_read {r : Request} {s t : State} (h : exec (decodeRequest r) s = .next t) (x : Nat) :
    t.mem.read x = if storesByte s.params.capacity r x then some (storedByte r x) else s.mem.read x := by
  cases hq : r.req
  · rw [exec_decode_idle s hq] at h
    cases h
    simp [storesByte, accessesByte, hq]
  · rcases Nat.lt_or_ge (highestTouched (accessWidth r) r.addr) s.params.capacity with hlt | hge
    · cases hw : r.we
      · rw [exec_decode_load_in hq hw hlt] at h
        cases h
        simp [storesByte, hw]
      · rw [exec_decode_store_in hq hw hlt] at h
        cases h
        rw [performStore_mem, read_memWrite]
        simp [storesByte, accessesByte, hq, hw, inRange_eq_true.2 hlt]
    · rw [exec_decode_out hq hge] at h
      cases h
      simp [storesByte, accessesByte, inRange_eq_false.2 hge]

/-- The acknowledgement of a request (R24). -/
theorem exec_decode_ack {r : Request} {s t : State} (h : exec (decodeRequest r) s = .next t) :
    (t.response s.port).ack = r.req := by
  cases hq : r.req
  · rw [exec_decode_idle s hq] at h
    cases h
    simp [Response.idle]
  · rcases Nat.lt_or_ge (highestTouched (accessWidth r) r.addr) s.params.capacity with hlt | hge
    · cases hw : r.we
      · rw [exec_decode_load_in hq hw hlt] at h
        cases h
        simp [Response.loaded]
      · rw [exec_decode_store_in hq hw hlt] at h
        cases h
        simp [Response.stored]
    · rw [exec_decode_out hq hge] at h
      cases h
      simp [Response.outOfRange]

/-- The same for the request that one port presents. -/
theorem exec_serve_read {r : Request} {p : Port} {s t : State} (h : exec (decodeRequest r) (s.serve p) = .next t) (x : Nat) :
    t.mem.read x = if storesByte s.params.capacity r x then some (storedByte r x) else s.mem.read x :=
  exec_decode_read h x

/-- One edge without reset, whole: the two instructions, and what is in each part of the state they leave. `rest` is what
stays listed once the edge's inputs are taken. -/
theorem performEdge_facts (ra rb : Request) (s : State) (rest : List Stimulus) :
    ∃ s1 s2 t, exec (decodeRequest ra) ({ s with inputs := rest }.serve .a) = .next s1 ∧
      exec (decodeRequest rb) (s1.serve .b) = .next s2 ∧
      performEdge ra rb { s with inputs := rest } = .next t ∧ t = s2.serve .a ∧
      s1.params = s.params ∧ t.params = s.params ∧ t.inputs = rest ∧
      t.a = s1.response .a ∧ t.b = s2.response .b ∧ t.mem = s2.mem ∧
      (∀ x, s1.mem.read x = if storesByte s.params.capacity ra x then some (storedByte ra x) else s.mem.read x) ∧
      (∀ x, t.mem.read x = if storesByte s.params.capacity rb x then some (storedByte rb x) else s1.mem.read x) := by
  obtain ⟨s1, s2, h1, h2, h3⟩ := performEdge_next ra rb { s with inputs := rest }
  have f1 := exec_fixed h1
  have f2 := exec_fixed h2
  have hp1 : s1.params = s.params := f1.1
  have hp2 : s2.params = s.params := f2.1.trans hp1
  have hr2 : ∀ x, s2.mem.read x =
      if storesByte s.params.capacity rb x then some (storedByte rb x) else s1.mem.read x := by
    rw [← hp1]
    exact exec_serve_read (s := s1) h2
  exact ⟨s1, s2, _, h1, h2, h3, rfl, hp1, hp2, f2.2.1.trans f1.2.1, exec_response_other h2, rfl, rfl,
    exec_serve_read (s := { s with inputs := rest }) h1, hr2⟩

end Sys2Proof.Machine
end

