-- ==== Sys2Proof/Tests/Slice0.lean ====
section
/-! SUPPORT. Small tests, each about one step, with expected results from spec/95_test_vectors.md (its vector is named), and
for every statement with hypotheses one witness that meets them all together. -/

namespace Sys2Proof.Tests

open Sys2Proof.Machine

/-- A block of this capacity, AW = 16, holding these bytes, right after reset. -/
def block (capacity : Nat) (cells : List Host.Cell) : State :=
  { State.reset with params := { aw := 16, capacity }, mem := cells }

/-- The same block about to see an edge at which these levels are presented. -/
def presenting (capacity : Nat) (cells : List Host.Cell) (rst : Bool) (ra rb : Request) : State :=
  { block capacity cells with inputs := [.edge { rst := .driven rst, a := .driven ra, b := .driven rb }] }

/-- The next state, if there is one. -/
def next? : Host.Outcome State Fault Refusal → Option State
  | .next s => some s
  | .fault _ => none
  | .refused _ => none

/-- Why a step was refused, if it was. -/
def refusal? : Host.Outcome State Fault Refusal → Option Refusal
  | .next _ => none
  | .fault _ => none
  | .refused r => some r

/-- Port A's response and the array after the step at which port A presents this table word. -/
def runWord (s : State) (w : Nat) : Option (Response × Memory) :=
  (next? (step (s.withFetchWord 40 w))).map fun t => (t.a, t.mem)

def reqLoad8 (addr : Nat) : Request := { req := true, we := false, w16 := false, addr, wdata := 0#16 }
def reqLoad16 (addr : Nat) : Request := { req := true, we := false, w16 := true, addr, wdata := 0#16 }
def reqStore8 (addr : Nat) (v : Half) : Request := { req := true, we := true, w16 := false, addr, wdata := v }
def reqStore16 (addr : Nat) (v : Half) : Request := { req := true, we := true, w16 := true, addr, wdata := v }

/-- The array of the load vectors L8-2 to L16-4. -/
def loadCells : List Host.Cell := [(0, 0xAB#8), (1, 0x03#8), (2, 0x02#8), (3, 0x9C#8)]

/-! ## Well-formedness: one ill-formed term for each check -/

theorem test_load8_address_too_wide : (Instr.load8 0x10000).wellFormed 16 = false := by decide
theorem test_load16_address_too_wide : (Instr.load16 0x10000).wellFormed 16 = false := by decide
theorem test_store8_address_too_wide : (Instr.store8 0x10000 0#8).wellFormed 16 = false := by decide
theorem test_store16_address_too_wide : (Instr.store16 4 0#16).wellFormed 2 = false := by decide
theorem test_request_address_too_wide : ¬ (reqLoad8 0x10000).Representable 16 := by decide

/-! ## Decoding: words written out in the spec, for every constructor -/

/-- N-1, and N-2 with every ignored pin at 1. -/
theorem test_decode_nop :
    decodeTableWord 40 0x000000000 = some .nop ∧ decodeTableWord 40 0x7FFFFFFFE = some .nop := by decide

/-- L8-2, and L8-4 with raw `wdata` pins 0xFFFF. -/
theorem test_decode_load8 :
    decodeTableWord 40 0x000000019 = some (.load8 0x0003) ∧
      decodeTableWord 40 0x7FFF80009 = some (.load8 0x0001) := by decide

/-- L16-1 and L16-5. -/
theorem test_decode_load16 :
    decodeTableWord 40 0x00000000D = some (.load16 0x0001) ∧
      decodeTableWord 40 0x00007FFFD = some (.load16 0xFFFF) := by decide

/-- S8-1, and S8-4 with raw `wdata` pins 0xAB77. -/
theorem test_decode_store8 :
    decodeTableWord 40 0x005580003 = some (.store8 0x0000 0xAB#8) ∧
      decodeTableWord 40 0x55BB8000B = some (.store8 0x0001 0x77#8) := by decide

/-- S16-1 and S16-8. -/
theorem test_decode_store16 :
    decodeTableWord 40 0x01018000F = some (.store16 0x0001 0x0203#16) ∧
      decodeTableWord 40 0x091A0080F = some (.store16 0x0101 0x1234#16) := by decide

/-- The encoder writes the words of S16-3 and L8-1. -/
theorem test_encode :
    encodeWord 16 (.store16 0x0003 0x1234#16) = 0x091A0001F ∧ encodeWord 16 (.load8 0x0000) = 0x000000001 := by
  decide

/-- With AW = 2 the data field starts at bit 5 (R71): STORE8 of 0xAB at 2. -/
theorem test_decode_other_width : decodeWord 2 (0xAB * 32 + 2 * 8 + 3) = .ok (.store8 2 0xAB#8) := by decide

/-- A bit above bit AW+18 belongs to no pin (R71). -/
theorem test_decode_refuses_by_name : decodeWord 16 0x800000000 = .error .wordTooWide := by decide

/-! ## The operations, one edge each, from a packed word on port A -/

/-- S8-4: `wdata[15:8]` is ignored and the next byte stays. -/
theorem test_store8_ignores_upper_lane :
    runWord (block 4 [(1, 0x55#8), (2, 0x66#8)]) 0x55BB8000B =
      some (⟨true, false, 0#16, 0⟩, [(1, 0x77#8), (2, 0x66#8)]) := by decide

/-- S8-6: no wrap, no modulo. -/
theorem test_store8_out_of_range :
    runWord (block 4 [(2, 0x66#8)]) 0x0000FFFFB = some (⟨true, true, 0#16, 0x0FFFF⟩, [(2, 0x66#8)]) := by decide

/-- S16-1: the low-order byte at the lower, odd address. -/
theorem test_store16_low_byte_first :
    runWord (block 4 []) 0x01018000F = some (⟨true, false, 0#16, 0⟩, [(1, 0x03#8), (2, 0x02#8)]) := by decide

/-- S16-5: no wrap to `mem[0]` at the top of the address space. -/
theorem test_store16_top_does_not_wrap :
    runWord (block 65536 [(0, 0x5A#8), (0xFFFF, 0x12#8)]) 0x55557FFFF =
      some (⟨true, true, 0#16, 0x10000⟩, [(0, 0x5A#8), (0xFFFF, 0x12#8)]) := by decide

/-- L8-4: zero-extended, raw `wdata` pins ignored. -/
theorem test_load8_zero_extends :
    runWord (block 4 loadCells) 0x7FFF80009 = some (⟨true, false, 0x0003#16, 0⟩, loadCells) := by decide

/-- L8-5: a byte never written is some byte; the load completes and the array stays. -/
theorem test_load8_of_unwritten_byte_completes :
    (next? (step ((block 4 []).withFetchWord 40 0x000000011))).map (fun t => (t.a.ack, t.a.err, t.mem, t.draws)) =
      some (true, false, [], 1) := by decide

/-- L16-2. -/
theorem test_load16_high_byte_second :
    runWord (block 4 loadCells) 0x000000005 = some (⟨true, false, 0x03AB#16, 0⟩, loadCells) := by decide

/-- L16-6: with CAPACITY = 1 every 16-bit access fails. -/
theorem test_load16_capacity_one :
    runWord (block 1 [(0, 0x77#8)]) 0x000000005 = some (⟨true, true, 0#16, 1⟩, [(0, 0x77#8)]) := by decide

/-- N-2: no bounds check for NOP whatever the other pins hold. -/
theorem test_nop_ignores_all_pins :
    runWord (block 4 loadCells) 0x7FFFFFFFE = some (⟨false, false, 0#16, 0⟩, loadCells) := by decide

/-! ## Both ports, reset, power, refusals -/

/-- Both responses and the array after one edge. -/
def runEdge (s : State) : Option (Response × Response × Memory) := (next? (step s)).map fun t => (t.a, t.b, t.mem)

/-- The array of the same-edge vectors. -/
def portCells : List Host.Cell := [(4, 0x00#8), (5, 0x00#8), (15, 0x9D#8)]

/-- DP-1: B sees A's store. -/
theorem test_b_sees_a :
    runEdge (presenting 16 portCells false (reqStore8 5 0x11#16) (reqLoad8 5)) =
      some (⟨true, false, 0#16, 0⟩, ⟨true, false, 0x0011#16, 0⟩, [(4, 0x00#8), (5, 0x11#8), (15, 0x9D#8)]) := by decide

/-- DP-8: A does not see B's store. -/
theorem test_a_does_not_see_b :
    runEdge (presenting 16 portCells false (reqLoad16 4) (reqStore16 4 0x5566#16)) =
      some (⟨true, false, 0#16, 0⟩, ⟨true, false, 0#16, 0⟩, [(4, 0x66#8), (5, 0x55#8), (15, 0x9D#8)]) := by decide

/-- DP-4: B's byte remains where the stores overlap, A's other byte stays. -/
theorem test_overlapping_stores :
    runEdge (presenting 16 portCells false (reqStore16 4 0xAABB#16) (reqStore8 5 0xCC#16)) =
      some (⟨true, false, 0#16, 0⟩, ⟨true, false, 0#16, 0⟩, [(4, 0xBB#8), (5, 0xCC#8), (15, 0x9D#8)]) := by decide

/-- DP-6: A's error leaves the byte that B loads alone. -/
theorem test_failed_store_is_not_partial :
    runEdge (presenting 16 portCells false (reqStore16 15 0x1234#16) (reqLoad8 15)) =
      some (⟨true, true, 0#16, 0x10⟩, ⟨true, false, 0x009D#16, 0⟩, portCells) := by decide

/-- DP-7: both ports err. -/
theorem test_both_ports_err :
    runEdge (presenting 16 portCells false (reqLoad16 0x20) (reqLoad16 0x20)) =
      some (⟨true, true, 0#16, 0x21⟩, ⟨true, true, 0#16, 0x21⟩, portCells) := by decide

/-- RST-1: requests discarded, the array not cleared. -/
theorem test_reset_discards_requests :
    runEdge (presenting 4 [(0, 0x77#8)] true (reqStore8 0 0x99#16) (reqLoad8 0)) =
      some (⟨false, false, 0#16, 0⟩, ⟨false, false, 0#16, 0⟩, [(0, 0x77#8)]) := by decide

/-- U6: CAPACITY = 0 and CAPACITY > 2^AW are refused. -/
theorem test_illegal_parameters_refused :
    refusal? (step (block 0 [])) = some .illegalParameters ∧
      refusal? (step (block 65537 [])) = some .illegalParameters := by decide

/-- U7: an input that is not stable is refused. -/
theorem test_unstable_input_refused :
    refusal? (step { block 4 [] with
      inputs := [.edge { rst := .driven false, a := .driven Request.idle, b := .unstable }] }) =
      some .unstableInput := by decide

/-- Every row of the table runs as the first instruction after reset. -/
theorem test_first_instruction_after_reset :
    [0x0, 0x1, 0x5, 0x3, 0x7].all (fun w => (next? (step (State.reset.withFetchWord 40 w))).isSome) = true := by decide

/-! ## Witnesses: states and operands that meet a statement's hypotheses together -/

def bothReq : Request := { req := true, we := true, w16 := true, addr := 0xFFFF, wdata := 0xFFFF#16 }

theorem witness_PackedWordHoldsEachFieldAtItsBits :
    bothReq.Representable 16 ∧ (reqLoad8 1).Representable 1 := by decide

theorem witness_ControlBitsSelectOneOperation :
    (0x7FFFFFFFE < 2 ^ (16 + 19) ∧ 0x7FFFFFFFE % 2 = 0) ∧ (0x7FFF80009 < 2 ^ (16 + 19) ∧ 0x7FFF80009 % 8 = 1) ∧
    (0x00007FFFD < 2 ^ (16 + 19) ∧ 0x00007FFFD % 8 = 5) ∧ (0x55BB8000B < 2 ^ (16 + 19) ∧ 0x55BB8000B % 8 = 3) ∧
    (0x7FFFFFFFF < 2 ^ (16 + 19) ∧ 0x7FFFFFFFF % 8 = 7) := by decide

theorem witness_DecodeInvertsEncode :
    Instr.nop.wellFormed 16 = true ∧ (Instr.load8 0xFFFF).wellFormed 16 = true ∧
    (Instr.load16 0xFFFF).wellFormed 16 = true ∧ (Instr.store8 0xFFFF 0xFF#8).wellFormed 16 = true ∧
    (Instr.store16 1 0xFFFF#16).wellFormed 1 = true := by decide

theorem witness_DecodeIsTotalAndWellFormed : 0x7FFFFFFFF < 2 ^ (16 + 19) ∧ 2 ^ (16 + 19) ≤ 0x800000000 := by decide

/-- Both ports fail (clauses 3 and 4), and the ignored fields differ. -/
theorem witness_EveryBundleIsDefinedAndIgnoredFieldsDoNotMatter :
    (presenting 4 [] false (reqLoad16 3) (reqStore8 4 0x0012#16)).Presents false (reqLoad16 3) (reqStore8 4 0x0012#16) [] ∧
    sameOperation (reqLoad16 3) { reqLoad16 3 with wdata := 0xFFFF#16 } ∧
    sameOperation (reqStore8 4 0x0012#16) (reqStore8 4 0xAB12#16) ∧
    ({ reqLoad16 3 with wdata := 0xFFFF#16 } : Request).Representable 16 ∧ (reqStore8 4 0xAB12#16).Representable 16 ∧
    ((reqLoad16 3).req = true ∧ 4 ≤ highestTouched (accessWidth (reqLoad16 3)) 3) ∧
    ((reqStore8 4 0x0012#16).req = true ∧ 4 ≤ highestTouched (accessWidth (reqStore8 4 0x0012#16)) 4) := by decide

theorem witness_StepRunsTheDecodedRequests :
    (presenting 4 [] false (unpack 16 0x01018000F) (unpack 16 0x00000000D)).Presents false (unpack 16 0x01018000F)
      (unpack 16 0x00000000D) [] ∧
    0x01018000F < 2 ^ (16 + 19) ∧ 0x00000000D < 2 ^ (16 + 19) := by decide

theorem witness_PresentedTableWordRunsNext :
    (block 4 []).params.Legal ∧ (block 4 []).params.aw = 16 ∧
    decodeTableWord 40 0x01018000F = some (.store16 1 0x0203#16) := by decide

theorem witness_BoundsCheckIsExact :
    (block 4 []).params.Legal ∧ (0xFFFF < 2 ^ 16 ∧ 3 < 2 ^ 16 ∧ 2 < 2 ^ 16) ∧
    (inRange 4 .byte 3 = true ∧ inRange 4 .byte 4 = false) ∧ (inRange 4 .half 2 = true ∧ inRange 4 .half 3 = false) ∧
    ((reqLoad16 3).req = true ∧ accessWidth (reqLoad16 3) = .half ∧ (reqLoad16 3).addr = 3) := by decide

theorem witness_FailedRequestHasNoOtherEffect :
    (reqStore16 3 0x1234#16).req = true ∧
    (block 4 []).params.capacity ≤ highestTouched (accessWidth (reqStore16 3 0x1234#16)) 3 := by decide

theorem witness_AddressesNeverWrap :
    (block 65536 []).params.Legal ∧ (reqLoad16 0xFFFF).req = true ∧ (reqLoad16 0xFFFF).Representable 16 ∧
    (reqLoad16 0xFFFF).w16 = true ∧ (reqLoad16 0xFFFF).addr = 2 ^ 16 - 1 ∧
    ((block 4 []).params.Legal ∧ (block 4 []).params.capacity ≤ (reqLoad8 4).addr) := by decide

theorem witness_ErrorRecordsHighestTouchedAddress :
    (presenting 4 [] false (reqLoad16 0xFFFF) (reqLoad8 4)).Presents false (reqLoad16 0xFFFF) (reqLoad8 4) [] ∧
    ((reqLoad16 0xFFFF).req = true ∧ 4 ≤ highestTouched (accessWidth (reqLoad16 0xFFFF)) 0xFFFF ∧
      (reqLoad16 0xFFFF).w16 = true) ∧
    ((reqLoad8 4).req = true ∧ 4 ≤ highestTouched (accessWidth (reqLoad8 4)) 4) := by decide

theorem witness_EveryInRangeRequestIsPerformed :
    ((reqStore16 2 0x1234#16).req = true ∧ highestTouched (accessWidth (reqStore16 2 0x1234#16)) 2 < 4 ∧
      (reqStore16 2 0x1234#16).we = true ∧ touches .half 2 3 = true) ∧
    ((reqLoad8 3).req = true ∧ highestTouched (accessWidth (reqLoad8 3)) 3 < 4 ∧ (reqLoad8 3).we = false ∧
      touches .byte 3 3 = true ∧ (block 4 loadCells).mem.read 3 = some 0x9C#8) := by decide

theorem witness_NopGivesTheIdleResponseOnly : ({ bothReq with req := false } : Request).req = false := by decide

theorem witness_Load8ReturnsTheByteZeroExtended :
    (3 < (block 4 loadCells).params.capacity ∧ (block 4 loadCells).mem.read 3 = some 0x9C#8) ∧
    (3 < (block 4 []).params.capacity ∧ (block 4 []).mem.read 3 = none) := by decide

theorem witness_Load16ReturnsLowByteFirst :
    (2 + 1 < (block 4 loadCells).params.capacity ∧ (block 4 loadCells).mem.read 2 = some 0x02#8 ∧
      (block 4 loadCells).mem.read 3 = some 0x9C#8) ∧
    ((block 4 []).mem.read 2 = none ∧ (block 4 []).mem.read 3 = none) := by decide

theorem witness_Store8WritesExactlyOneByte : 3 < (block 4 []).params.capacity := by decide

theorem witness_Store16WritesLowByteFirst : 2 + 1 < (block 4 []).params.capacity := by decide

theorem witness_LowOrderByteLiesAtTheLowerAddress :
    (block 4 loadCells).mem.read 2 = some 0x02#8 ∧ (block 4 loadCells).mem.read 3 = some 0x9C#8 := by decide

theorem witness_MixedWidthAccessesSeeOneLayout : 1 + 2 < (block 4 []).params.capacity := by decide

theorem witness_LoadAfterStoreGivesTheStoredValue :
    3 < (block 4 []).params.capacity ∧ 2 + 1 < (block 4 []).params.capacity := by decide

theorem witness_RepeatedAccessIsIdempotent :
    (reqLoad16 2).req = true ∧
    ∀ x, touches (accessWidth (reqLoad16 2)) (reqLoad16 2).addr x = true → (block 4 loadCells).mem.read x ≠ none := by
  refine ⟨rfl, fun x h => ?_⟩
  rw [touches_eq_true] at h
  have h1 : 2 ≤ x := h.1
  have h2 : x ≤ 2 + 1 := h.2
  have hx : x = 2 ∨ x = 3 := by omega
  rcases hx with rfl | rfl <;> decide

/-- Without reset and with it. -/
theorem witness_StepIsTheEdgeProcedure :
    (presenting 16 portCells false (reqStore8 5 0x11#16) (reqLoad8 5)).Presents false (reqStore8 5 0x11#16) (reqLoad8 5) [] ∧
    (presenting 16 portCells true (reqStore8 5 0x11#16) (reqLoad8 5)).Presents true (reqStore8 5 0x11#16) (reqLoad8 5) [] := by
  decide

/-- Clauses 1 to 3 at bytes 5, 4 and 6 of one edge; clauses 4 and 5 at two more. -/
theorem witness_PortAComesBeforePortB :
    ((presenting 16 portCells false (reqStore16 4 0xAABB#16) (reqStore8 5 0xCC#16)).Presents false
        (reqStore16 4 0xAABB#16) (reqStore8 5 0xCC#16) [] ∧
      storesByte 16 (reqStore8 5 0xCC#16) 5 = true ∧
      (storesByte 16 (reqStore8 5 0xCC#16) 4 = false ∧ storesByte 16 (reqStore16 4 0xAABB#16) 4 = true) ∧
      (storesByte 16 (reqStore8 5 0xCC#16) 6 = false ∧ storesByte 16 (reqStore16 4 0xAABB#16) 6 = false)) ∧
    ((presenting 16 portCells false (reqStore8 15 0x11#16) (reqLoad8 15)).Presents false (reqStore8 15 0x11#16)
        (reqLoad8 15) [] ∧
      (reqLoad8 15).req = true ∧ (reqLoad8 15).we = false ∧ (reqLoad8 15).w16 = false ∧
      storesByte 16 (reqStore8 15 0x11#16) 15 = true) ∧
    ((presenting 16 portCells false (reqLoad8 15) (reqStore8 15 0x22#16)).Presents false (reqLoad8 15)
        (reqStore8 15 0x22#16) [] ∧
      15 < 16 ∧ (block 16 portCells).mem.read 15 = some 0x9D#8) := by decide

/-- DP-9 for clauses 1 and 3 (the array afterwards holds both bytes), DP-8 for clause 2. -/
theorem witness_SixteenBitAccessIsAtomic :
    ((presenting 16 portCells false (reqStore16 4 0x5566#16) (reqLoad16 4)).Presents false (reqStore16 4 0x5566#16)
        (reqLoad16 4) [] ∧
      (reqLoad16 4).req = true ∧ (reqLoad16 4).we = false ∧ (reqLoad16 4).w16 = true ∧ 4 + 1 < 16 ∧
      (next? (step (presenting 16 portCells false (reqStore16 4 0x5566#16) (reqLoad16 4)))).map
        (fun t => (t.mem.read 4, t.mem.read 5)) = some (some 0x66#8, some 0x55#8) ∧
      decodeRequest (reqStore16 4 0x5566#16) = .store16 4 0x5566#16 ∧ decodeRequest (reqLoad16 4) = .load16 4) ∧
    ((presenting 16 portCells false (reqLoad16 4) (reqStore16 4 0x5566#16)).Presents false (reqLoad16 4)
        (reqStore16 4 0x5566#16) [] ∧
      (block 16 portCells).mem.read 4 = some 0#8 ∧ (block 16 portCells).mem.read 5 = some 0#8) := by decide

theorem witness_ErrorsOfThePortsAreIndependent :
    (presenting 16 portCells false (reqLoad16 15) (reqLoad8 16)).Presents false (reqLoad16 15) (reqLoad8 16) [] ∧
    ((reqLoad16 15).req = true ∧ 16 ≤ highestTouched (accessWidth (reqLoad16 15)) 15) ∧
    ((reqLoad8 16).req = true ∧ 16 ≤ highestTouched (accessWidth (reqLoad8 16)) 16) := by decide

/-- A store at 4 and a load at 5, both bytes written: no overlap. -/
theorem witness_NonOverlappingRequestsMaySwapPorts :
    (presenting 16 portCells false (reqStore8 4 0x11#16) (reqLoad8 5)).Presents false (reqStore8 4 0x11#16) (reqLoad8 5) [] ∧
    (∀ x, storesByte 16 (reqStore8 4 0x11#16) x = true → accessesByte 16 (reqLoad8 5) x = false) ∧
    (∀ x, storesByte 16 (reqLoad8 5) x = true → accessesByte 16 (reqStore8 4 0x11#16) x = false) ∧
    (∀ x, accessesByte 16 (reqStore8 4 0x11#16) x = true → (block 16 portCells).mem.read x ≠ none) ∧
    (∀ x, accessesByte 16 (reqLoad8 5) x = true → (block 16 portCells).mem.read x ≠ none) := by
  have at4 : ∀ x, accessesByte 16 (reqStore8 4 0x11#16) x = true → x = 4 := fun x h => by
    have h' := (touches_eq_true.1 (accessesByte_eq_true.1 h).2.2)
    have h1 : 4 ≤ x := h'.1
    have h2 : x ≤ 4 := h'.2
    omega
  have at5 : ∀ x, accessesByte 16 (reqLoad8 5) x = true → x = 5 := fun x h => by
    have h' := (touches_eq_true.1 (accessesByte_eq_true.1 h).2.2)
    have h1 : 5 ≤ x := h'.1
    have h2 : x ≤ 5 := h'.2
    omega
  refine ⟨by decide, fun x h => ?_, fun x h => ?_, fun x h => ?_, fun x h => ?_⟩
  · rw [at4 x (storesByte_eq_true.1 h).2]; decide
  · exact absurd (storesByte_eq_true.1 h).1 (by decide)
  · rw [at4 x h]; decide
  · rw [at5 x h]; decide

theorem witness_EveryEdgeAcceptsOneRequestPerPort :
    (presenting 16 portCells false (reqLoad16 0xFFFF) Request.idle).Presents false (reqLoad16 0xFFFF) Request.idle [] := by
  decide

theorem witness_ResponseIsReplacedAtTheNextEdge :
    (presenting 16 portCells false Request.idle Request.idle).Presents false Request.idle Request.idle [] ∧
    Request.idle.req = false := by decide

theorem witness_ResponsesAreDefinedAfterEveryEdge :
    (presenting 16 portCells false (reqLoad16 15) (reqLoad8 15)).Presents false (reqLoad16 15) (reqLoad8 15) [] := by
  decide

theorem witness_ResetClearsResponsesAndDiscardsRequests :
    (presenting 4 [(0, 0x77#8)] true (reqStore8 0 0x99#16) (reqLoad8 0)).Presents true (reqStore8 0 0x99#16)
      (reqLoad8 0) [] := by decide

/-- A block that holds bytes and whose next event is a loss of power. -/
def losingPower : State := { block 4 loadCells with inputs := [.powerCycle] }

theorem witness_PowerLossForgetsEveryByte :
    losingPower.params.Legal ∧ losingPower.inputs = .powerCycle :: [] := by decide

/-- A block about to see an edge with these samples. -/
def sampling (e : EdgeInputs) : State := { block 4 [] with inputs := [.edge e] }

def rstUnstable : EdgeInputs := { rst := .unstable, a := .driven Request.idle, b := .driven Request.idle }
def aUnstable : EdgeInputs := { rst := .driven true, a := .unstable, b := .driven Request.idle }
def bUnstable : EdgeInputs := { rst := .driven false, a := .driven Request.idle, b := .unstable }

/-- One unstable input on each of the three, one of them at an edge with `rst = 1`. -/
theorem witness_UnstableInputIsRefused :
    ((sampling rstUnstable).params.Legal ∧ (sampling rstUnstable).inputs = .edge rstUnstable :: [] ∧
      rstUnstable.rst = .unstable) ∧
    ((sampling aUnstable).params.Legal ∧ (sampling aUnstable).inputs = .edge aUnstable :: [] ∧
      aUnstable.a = .unstable) ∧
    ((sampling bUnstable).params.Legal ∧ (sampling bUnstable).inputs = .edge bUnstable :: [] ∧
      bUnstable.b = .unstable) := by decide

/-- The first illegal capacities at both ends, and the lowest unrepresentable address on either port. -/
theorem witness_UnrepresentableBlocksAndRequestsAreRefused :
    let sa := presenting 4 [] false (reqLoad8 0x10000) Request.idle
    let sb := presenting 4 [] true Request.idle (reqLoad8 0x10000)
    ¬ (block 0 []).params.Legal ∧ ¬ (block 65537 []).params.Legal ∧
    (sa.params.Legal ∧
      sa.inputs = .edge { rst := .driven false, a := .driven (reqLoad8 0x10000), b := .driven Request.idle } :: [] ∧
      2 ^ sa.params.aw ≤ (reqLoad8 0x10000).addr) ∧
    (sb.params.Legal ∧
      sb.inputs = .edge { rst := .driven true, a := .driven Request.idle, b := .driven (reqLoad8 0x10000) } :: [] ∧
      2 ^ sb.params.aw ≤ (reqLoad8 0x10000).addr) := by decide

theorem witness_UnlistedEdgeIsIdle : (block 4 loadCells).params.Legal ∧ (block 4 loadCells).inputs = [] := by decide

theorem witness_CapacityOutputIsConstant :
    (block 65536 []).params.Legal ∧ ∃ t, step (block 65536 []) = .next t := ⟨by decide, _, rfl⟩

/-- A store to byte 4 leaves byte 5. -/
theorem witness_OnlyAStoreThatNamesAByteChangesIt :
    (∃ t, step (presenting 16 portCells false (reqStore8 4 0x11#16) (reqLoad8 5)) = .next t) ∧
    ∀ e, (presenting 16 portCells false (reqStore8 4 0x11#16) (reqLoad8 5)).inputs.head? = some e →
      e.leaves 16 5 = true := by
  refine ⟨⟨_, rfl⟩, fun e h => ?_⟩
  cases h
  decide

theorem witness_ByteHoldsUntilAStoreNamesIt :
    (∃ t, Host.Core.run Sys2Proof.core 2 (presenting 16 portCells false (reqStore8 4 0x11#16) (reqLoad8 5)) = .next t) ∧
    ∀ e ∈ (presenting 16 portCells false (reqStore8 4 0x11#16) (reqLoad8 5)).inputs.take 2, e.leaves 16 5 = true := by
  refine ⟨⟨_, rfl⟩, fun e h => ?_⟩
  simp [presenting] at h
  subst h
  decide

/-- Port A stores byte 4, one idle edge lies between; port B stores byte 5 at the same edge (both alternatives). -/
theorem witness_StoreIsSeenByEveryLaterLoad :
    let ra := reqStore8 4 0x11#16
    let rb := reqStore8 5 0x22#16
    let s := presenting 16 portCells false ra rb
    s.Presents false ra rb [] ∧
    (storesByte 16 rb 5 = true ∧ 0x22#8 = storedByte rb 5) ∧
    (storesByte 16 rb 4 = false ∧ storesByte 16 ra 4 = true ∧ 0x11#8 = storedByte ra 4) ∧
    (∃ t u, step s = .next t ∧ Host.Core.run Sys2Proof.core 1 t = .next u) ∧
    (∀ e ∈ ([] : List Stimulus).take 1, e.leaves 16 5 = true) ∧ (4 + 1 < 16 ∧ 1 ≤ 4) := by
  refine ⟨by decide, by decide, by decide, ⟨_, _, rfl, rfl⟩, by simp, by decide⟩

theorem witness_StepKeepsTheStateSound :
    (presenting 16 portCells false (reqStore16 14 0x1234#16) (reqLoad8 5)).Sound ∧
    ∃ t, step (presenting 16 portCells false (reqStore16 14 0x1234#16) (reqLoad8 5)) = .next t :=
  ⟨by decide, _, rfl⟩

theorem witness_MachineNeverStopsOnStableInputs :
    (presenting 16 portCells false (reqStore16 15 0x1234#16) (reqLoad8 5)).Sound ∧
    (∀ e, (presenting 16 portCells false (reqStore16 15 0x1234#16) (reqLoad8 5)).inputs.head? = some (.edge e) →
      ∃ rst ra rb, e = ⟨.driven rst, .driven ra, .driven rb⟩ ∧ ra.Representable 16 ∧ rb.Representable 16) := by
  refine ⟨by decide, fun e h => ?_⟩
  cases h
  exact ⟨_, _, _, rfl, by decide, by decide⟩

end Sys2Proof.Tests
end

section
/-! Proofs for the statements on the whole machine: every step keeps it sound, reset is sound, the two ports perform alike,
and what the step refuses. -/

namespace Sys2Proof.Machine

/-! ## The invariant `State.Sound` -/

theorem exec_sound {i : Instr} {s t : State} (h : exec i s = .next t) (hs : s.Sound) : t.Sound := by
  obtain ⟨hlegal, hwf, hwithin⟩ := hs
  obtain ⟨hparams, -, -⟩ := exec_fixed h
  rw [State.Sound, hparams]
  exact ⟨hlegal, exec_wf h hwf, exec_within h hwithin⟩

@[simp] theorem serve_sound (s : State) (p : Port) : (s.serve p).Sound ↔ s.Sound := Iff.rfl

@[simp] theorem resetEdge_sound (s : State) : (resetEdge s).Sound ↔ s.Sound := Iff.rfl

/-- A block that has just powered up holds no byte, so legal parameters are all it needs (R145). -/
theorem powerUp_sound {params : Params} (hl : params.Legal) (draws : Nat) (inputs : List Stimulus) :
    (powerUp params draws inputs).Sound :=
  ⟨hl, List.Pairwise.nil, List.forall_mem_nil _⟩

theorem performEdge_sound {ra rb : Request} {s t : State} (h : performEdge ra rb s = .next t) (hs : s.Sound) :
    t.Sound := by
  obtain ⟨s1, s2, h1, h2, hnext⟩ := performEdge_next ra rb s
  have hs1 : s1.Sound := exec_sound h1 ((serve_sound s .a).2 hs)
  have hs2 : s2.Sound := exec_sound h2 ((serve_sound s1 .b).2 hs1)
  rw [hnext] at h
  cases h
  exact (serve_sound s2 .a).2 hs2

theorem clockEdge_sound {e : EdgeInputs} {s t : State} (h : clockEdge e s = .next t) (hs : s.Sound) : t.Sound := by
  obtain ⟨_, ra, rb, -, -, -, ⟨-, rfl⟩ | ⟨-, hedge⟩⟩ := clockEdge_cases h
  · exact (resetEdge_sound s).2 hs
  · exact performEdge_sound hedge hs

theorem step_sound {s t : State} (h : step s = .next t) (hs : s.Sound) : t.Sound := by
  obtain ⟨hlegal, ⟨e, rest, -, hedge⟩ | ⟨rest, -, rfl⟩⟩ := step_cases h
  · exact clockEdge_sound hedge hs
  · exact powerUp_sound hlegal ..

/-- Settles O43: an edge is two instructions or a reset, and each keeps the invariant; a loss of power empties the array. -/
theorem stepKeepsTheStateSound : Obligations.StepKeepsTheStateSound :=
  fun _ _ hs h => step_sound h hs

theorem reference_legal : Params.reference.Legal := by decide

/-- Settles O44: the reference parameters are legal, and the array after reset is empty. -/
theorem resetStateIsSound : Obligations.ResetStateIsSound :=
  ⟨reference_legal, List.Pairwise.nil, List.forall_mem_nil _⟩

/-! ## The two ports -/

/-- `t` and `u` come from `s` by one effect, performed on port A and on port B: the same array, draws and response, the
response on the port's own registers and the other port's left alone (R7, R41, R143). -/
structure PortsAlike (s t u : State) : Prop where
  mem : t.mem = u.mem
  response : t.a = u.b
  draws : t.draws = u.draws
  other_a : t.b = s.b
  other_b : u.a = s.a

section
variable (s : State) (w : Width) (addr : Nat)

theorem respond_portsAlike (r : Response) : PortsAlike s ((s.serve .a).respond r) ((s.serve .b).respond r) :=
  ⟨rfl, rfl, rfl, rfl, rfl⟩

theorem performLoad_portsAlike :
    PortsAlike s (performLoad w addr (s.serve .a)) (performLoad w addr (s.serve .b)) where
  mem := rfl
  response := congrArg Response.loaded ((memRead_serve w addr s .a).trans (memRead_serve w addr s .b).symm)
  draws := rfl
  other_a := rfl
  other_b := rfl

theorem performStore_portsAlike (v : Half) :
    PortsAlike s (performStore w addr v (s.serve .a)) (performStore w addr v (s.serve .b)) :=
  ⟨rfl, rfl, rfl, rfl, rfl⟩

variable {s}

/-- The bounds check does not look at the port, and its error is a response like any other. -/
theorem checked_portsAlike {f : State → State} (hf : PortsAlike s (f (s.serve .a)) (f (s.serve .b))) :
    PortsAlike s (checked w addr f (s.serve .a)) (checked w addr f (s.serve .b)) := by
  rcases Nat.lt_or_ge (highestTouched w addr) s.params.capacity with hin | hout
  · rw [checked_in (s := s.serve .a) f hin, checked_in (s := s.serve .b) f hin]
    exact hf
  · rw [checked_out (s := s.serve .a) f hout, checked_out (s := s.serve .b) f hout]
    exact respond_portsAlike s _

end

theorem exec_portsAlike (i : Instr) (s : State) :
    ∃ t u, exec i (s.serve .a) = .next t ∧ exec i (s.serve .b) = .next u ∧ PortsAlike s t u := by
  cases i with
  | nop => exact ⟨_, _, exec_nop _, exec_nop _, respond_portsAlike s _⟩
  | load8 addr =>
    exact ⟨_, _, exec_load8 .., exec_load8 .., checked_portsAlike _ _ (performLoad_portsAlike s _ _)⟩
  | load16 addr =>
    exact ⟨_, _, exec_load16 .., exec_load16 .., checked_portsAlike _ _ (performLoad_portsAlike s _ _)⟩
  | store8 addr data =>
    exact ⟨_, _, exec_store8 .., exec_store8 .., checked_portsAlike _ _ (performStore_portsAlike s _ _ _)⟩
  | store16 addr data =>
    exact ⟨_, _, exec_store16 .., exec_store16 .., checked_portsAlike _ _ (performStore_portsAlike s _ _ _)⟩

/-- Settles O24: NOP, the error, a load and a store each read the served port only to place their response. -/
theorem bothPortsPerformAlike : Obligations.BothPortsPerformAlike := by
  intro s i
  obtain ⟨t, u, ht, hu, halike⟩ := exec_portsAlike i s
  exact ⟨t, u, ht, hu, halike.mem, halike.response, halike.draws, halike.other_a, halike.other_b⟩

/-! ## What the step refuses -/

theorem step_of_not_legal {s : State} (h : ¬ s.params.Legal) : step s = .refused .illegalParameters := if_neg h

/-- The step at a listed edge is that edge, with its inputs taken off the list. -/
theorem step_of_edge {s : State} {e : EdgeInputs} {rest : List Stimulus} (hl : s.params.Legal)
    (hi : s.inputs = .edge e :: rest) : step s = clockEdge e { s with inputs := rest } := by
  rw [step, nextEvent, if_pos hl, hi]

theorem clockEdge_of_not_representable {rst : Bool} {ra rb : Request} {s : State}
    (h : ¬ (ra.Representable s.params.aw ∧ rb.Representable s.params.aw)) :
    clockEdge { rst := .driven rst, a := .driven ra, b := .driven rb } s = .refused .unrepresentableAddress :=
  if_neg h

/-- Settles O37: the parameters are looked at first, and then, at a listed edge, both addresses. -/
theorem unrepresentableBlocksAndRequestsAreRefused : Obligations.UnrepresentableBlocksAndRequestsAreRefused := by
  intro s
  refine ⟨step_of_not_legal, fun rst ra rb rest hl hi hwide => ?_⟩
  have hnot : ¬ (ra.Representable s.params.aw ∧ rb.Representable s.params.aw) := by
    rintro ⟨ha, hb⟩
    rcases hwide with hwide | hwide
    · exact absurd ha (Nat.not_lt.2 hwide)
    · exact absurd hb (Nat.not_lt.2 hwide)
  rw [step_of_edge hl hi]
  exact clockEdge_of_not_representable hnot

end Sys2Proof.Machine
end

section
/-! Proofs for the statements on the state: what a reset leaves, which responses an edge can leave, and which bytes a step, or
any number of steps, can change. -/

namespace Sys2Proof.Machine

/-! ## The state after reset -/

/-- Settles O34: each part is read off `State.reset`. -/
theorem resetStateIsAsTheSpecSays : Obligations.ResetStateIsAsTheSpecSays :=
  ⟨rfl, rfl, read_nil, rfl, rfl⟩

/-! ## Addresses of representable requests -/

/-- The operand address of a decoded request is the one its pins carry, so it has AW bits (R71, R75). -/
theorem decodeRequest_access_lt {aw : Nat} {r : Request} {w : Width} {addr : Nat} (hr : r.Representable aw)
    (h : (decodeRequest r).access? = some (w, addr)) : addr < 2 ^ aw := by
  obtain ⟨req, we, w16, a, wdata⟩ := r
  cases req
  · cases h
  · cases we <;> cases w16 <;> cases h <;> exact hr

/-- The highest touched address of a representable access fits AW+1 bits (R132). -/
theorem highestTouched_lt {aw addr : Nat} (w : Width) (h : addr < 2 ^ aw) : highestTouched w addr < 2 ^ (aw + 1) := by
  rw [pow_succ]
  cases w
  · rw [highestTouched_byte]; omega
  · rw [highestTouched_half]; omega

/-! ## Coherent responses (R79) -/

section
variable (p : Params)

theorem idle_coherent : Response.idle.Coherent p := ⟨fun _ => rfl, nofun, fun _ => rfl⟩

theorem stored_coherent : Response.stored.Coherent p := ⟨nofun, nofun, fun _ => rfl⟩

theorem loaded_coherent (v : Half) : (Response.loaded v).Coherent p := ⟨nofun, nofun, fun _ => rfl⟩

variable {p}

theorem outOfRange_coherent {hi : Nat} (hcap : p.capacity ≤ hi) (hwidth : hi < 2 ^ (p.aw + 1)) :
    (Response.outOfRange hi).Coherent p := ⟨nofun, fun _ => ⟨rfl, rfl, hcap, hwidth⟩, nofun⟩

end

/-- Whatever the registers held, a representable request leaves its port one of the tuples of R79. -/
theorem exec_decode_coherent {r : Request} {s t : State} (hr : r.Representable s.params.aw)
    (h : exec (decodeRequest r) s = .next t) : (t.response s.port).Coherent s.params := by
  rcases exec_cases h with ⟨-, rfl⟩ | ⟨w, addr, ha, ⟨hcap, rfl⟩ | ⟨-, -, rfl⟩ | ⟨-, -, v, rfl⟩⟩
  · rw [respond_response_same]
    exact idle_coherent _
  · rw [raiseOutOfRange_response]
    exact outOfRange_coherent hcap (highestTouched_lt w (decodeRequest_access_lt hr ha))
  · rw [performLoad_response]
    exact loaded_coherent _ _
  · rw [performStore_response]
    exact stored_coherent _

theorem performEdge_coherent {ra rb : Request} {s t : State} (ha : ra.Representable s.params.aw)
    (hb : rb.Representable s.params.aw) (h : performEdge ra rb s = .next t) :
    t.a.Coherent s.params ∧ t.b.Coherent s.params := by
  obtain ⟨s1, s2, t', h1, h2, h3, -, hp1, -, -, hta, htb, -⟩ := performEdge_facts ra rb s s.inputs
  cases h.symm.trans h3
  have ca : (s1.response .a).Coherent s.params := exec_decode_coherent (s := s.serve .a) ha h1
  have cb : (s2.response .b).Coherent s1.params :=
    exec_decode_coherent (s := s1.serve .b) (by rw [serve_params, hp1]; exact hb) h2
  rw [hp1] at cb
  rw [hta, htb]
  exact ⟨ca, cb⟩

/-- The step at a listed edge whose inputs are stable and representable. -/
theorem step_of_presents {s : State} {rst : Bool} {ra rb : Request} {rest : List Stimulus}
    (h : s.Presents rst ra rb rest) :
    step s = if rst then .next (resetEdge { s with inputs := rest }) else performEdge ra rb { s with inputs := rest } := by
  obtain ⟨hlegal, ha, hb, hinputs⟩ := h
  rw [step_of_edge hlegal hinputs]
  exact clockEdge_driven ha hb

/-- Settles O32: a reset makes both responses idle, and otherwise each port's instruction writes a tuple of R79. -/
theorem responsesAreDefinedAfterEveryEdge : Obligations.ResponsesAreDefinedAfterEveryEdge := by
  intro s rst ra rb rest h
  rw [step_of_presents h]
  obtain ⟨-, ha, hb, -⟩ := h
  cases rst with
  | true => exact ⟨_, if_pos rfl, idle_coherent _, idle_coherent _⟩
  | false =>
    obtain ⟨_, s2, -, -, hedge⟩ := performEdge_next ra rb { s with inputs := rest }
    exact ⟨_, hedge, performEdge_coherent (s := { s with inputs := rest }) ha hb hedge⟩

/-! ## What a step leaves unchanged, and the one list it takes from -/

theorem performEdge_fixed {ra rb : Request} {s t : State} (h : performEdge ra rb s = .next t) :
    t.params = s.params ∧ t.inputs = s.inputs := by
  obtain ⟨s1, s2, t', -, -, h3, -, -, hparams, hinputs, -⟩ := performEdge_facts ra rb s s.inputs
  cases h.symm.trans h3
  exact ⟨hparams, hinputs⟩

theorem clockEdge_fixed {e : EdgeInputs} {s t : State} (h : clockEdge e s = .next t) :
    t.params = s.params ∧ t.inputs = s.inputs := by
  obtain ⟨_, ra, rb, -, -, -, ⟨-, rfl⟩ | ⟨-, hedge⟩⟩ := clockEdge_cases h
  · exact ⟨resetEdge_params s, resetEdge_inputs s⟩
  · exact performEdge_fixed hedge

/-- No step changes the parameters (R154), and each takes one event off the list (log 4). -/
theorem step_fixed {s t : State} (h : step s = .next t) : t.params = s.params ∧ t.inputs = s.inputs.tail := by
  obtain ⟨-, ⟨e, rest, hlist, hedge⟩ | ⟨rest, hlist, rfl⟩⟩ := step_cases h
  · obtain ⟨hparams, hinputs⟩ := clockEdge_fixed hedge
    refine ⟨hparams, hinputs.trans ?_⟩
    rcases hlist with hlist | ⟨hlist, -, rfl⟩ <;> rw [hlist] <;> rfl
  · rw [hlist]
    exact ⟨rfl, rfl⟩

/-! ## The bytes a step can change (R22) -/

theorem leaves_edge_iff {capacity x : Nat} {ra rb : Request} :
    (Stimulus.edge ⟨.driven false, .driven ra, .driven rb⟩).leaves capacity x = true ↔
      storesByte capacity ra x = false ∧ storesByte capacity rb x = false := by
  simp [Stimulus.leaves]

theorem leaves_idle (capacity x : Nat) : (Stimulus.edge EdgeInputs.idle).leaves capacity x = true := rfl

/-- A byte that neither request stores is not changed by the edge that performs both. -/
theorem performEdge_read_of_not_stored {ra rb : Request} {s t : State} {x : Nat} (h : performEdge ra rb s = .next t)
    (ha : storesByte s.params.capacity ra x = false) (hb : storesByte s.params.capacity rb x = false) :
    t.mem.read x = s.mem.read x := by
  obtain ⟨s1, s2, t', -, -, h3, -, -, -, -, -, -, -, hread1, hread2⟩ := performEdge_facts ra rb s s.inputs
  cases h.symm.trans h3
  rw [hread2, hb, hread1, ha]
  rfl

theorem clockEdge_read_of_leaves {e : EdgeInputs} {s t : State} {x : Nat} (h : clockEdge e s = .next t)
    (hx : (Stimulus.edge e).leaves s.params.capacity x = true) : t.mem.read x = s.mem.read x := by
  obtain ⟨_, ra, rb, rfl, -, -, ⟨-, rfl⟩ | ⟨rfl, hedge⟩⟩ := clockEdge_cases h
  · rw [resetEdge_mem]
  · obtain ⟨ha, hb⟩ := leaves_edge_iff.1 hx
    exact performEdge_read_of_not_stored hedge ha hb

theorem step_read_of_leaves {s t : State} {x : Nat} (h : step s = .next t)
    (hx : ∀ e, s.inputs.head? = some e → e.leaves s.params.capacity x = true) : t.mem.read x = s.mem.read x := by
  obtain ⟨-, ⟨e, rest, hlist, hedge⟩ | ⟨rest, hlist, -⟩⟩ := step_cases h
  · have he : (Stimulus.edge e).leaves s.params.capacity x = true := by
      rcases hlist with hlist | ⟨-, rfl, -⟩
      · exact hx _ (by rw [hlist]; rfl)
      · exact leaves_idle ..
    exact clockEdge_read_of_leaves (s := { s with inputs := rest }) hedge he
  · have hpower : Stimulus.powerCycle.leaves s.params.capacity x = true := hx _ (by rw [hlist]; rfl)
    cases hpower

/-- Settles O40: only a store of the edge can change a byte, and the listed event has none that names it. -/
theorem onlyAStoreThatNamesAByteChangesIt : Obligations.OnlyAStoreThatNamesAByteChangesIt :=
  fun _ _ _ => step_read_of_leaves

/-! ## Any number of steps -/

/-- A run of `k + 1` steps that answers a next state is one step and a run of `k` from where it led. -/
theorem run_succ_eq_next {M : Host.Core} {k : Nat} {s t : M.State} (h : M.run (k + 1) s = .next t) :
    ∃ u, M.step s = .next u ∧ M.run k u = .next t := by
  rw [Host.Core.run] at h
  split at h
  next u hstep => exact ⟨u, hstep, h⟩
  all_goals cases h

/-- The first event listed is among those of `k + 1` steps. -/
theorem mem_take_succ_of_head {l : List Stimulus} {e : Stimulus} (k : Nat) (h : l.head? = some e) :
    e ∈ l.take (k + 1) :=
  List.mem_of_head? (by rw [List.head?_take, if_neg (Nat.succ_ne_zero k), h])

/-- The events of the `k` steps after the first are among those of `k + 1` steps. -/
theorem mem_take_succ_of_tail {l : List Stimulus} {e : Stimulus} {k : Nat} (h : e ∈ l.tail.take k) :
    e ∈ l.take (k + 1) :=
  List.mem_of_mem_tail (by rwa [List.tail_take_eq_take_tail])

/-- A byte that none of the events of `k` steps stores reads after them as before. -/
theorem run_read_of_leaves {k : Nat} {s t : State} {x : Nat} (h : Host.Core.run Sys2Proof.core k s = .next t)
    (hx : ∀ e ∈ s.inputs.take k, e.leaves s.params.capacity x = true) : t.mem.read x = s.mem.read x := by
  induction k generalizing s with
  | zero =>
    cases h
    rfl
  | succ k ih =>
    obtain ⟨u, hstep, hrun⟩ := run_succ_eq_next (M := Sys2Proof.core) h
    obtain ⟨hparams, hinputs⟩ := step_fixed hstep
    have hu : ∀ e ∈ u.inputs.take k, e.leaves u.params.capacity x = true := by
      rw [hparams, hinputs]
      exact fun e he => hx e (mem_take_succ_of_tail he)
    calc t.mem.read x = u.mem.read x := ih hrun hu
      _ = s.mem.read x := step_read_of_leaves hstep fun e he => hx e (mem_take_succ_of_head k he)

/-- Settles O41, by induction on the number of steps: each takes the next listed event, which does not store the byte. -/
theorem byteHoldsUntilAStoreNamesIt : Obligations.ByteHoldsUntilAStoreNamesIt :=
  fun _ _ _ _ => run_read_of_leaves

end Sys2Proof.Machine
end

section
/-! Proofs for the statements on memory: the edge procedure of R58, the byte layout of R42, what the two ports of one edge
see of each other, repetition, and the bounds check. -/

namespace Sys2Proof.Machine

/-! ## Lanes and loaded values, in the arithmetic of the reference -/

theorem lane0_eq_ofNat (v : Half) : lane0 v = BitVec.ofNat 8 (v.toNat % 256) := by
  apply BitVec.eq_of_toNat_eq
  rw [toNat_lane0, BitVec.toNat_ofNat]
  omega

theorem lane1_eq_ofNat (v : Half) : lane1 v = BitVec.ofNat 8 (v.toNat / 256) := by
  apply BitVec.eq_of_toNat_eq
  have := v.isLt
  rw [toNat_lane1, BitVec.toNat_ofNat]
  omega

theorem toNat_zext16 (v : Byte) : (zext16 v).toNat = v.toNat := by
  rw [zext16, toNat_joinLanes]
  simp

section
variable (s : State) (addr : Nat)

theorem toNat_memRead_byte : (memRead s .byte addr).toNat = (s.loadByte addr).toNat := toNat_zext16 _

theorem toNat_memRead_half :
    (memRead s .half addr).toNat = 256 * (s.loadByte (addr + 1)).toNat + (s.loadByte addr).toNat :=
  toNat_joinLanes ..

variable {s addr}

theorem memRead_byte_of_written {v : Byte} (h : s.mem.read addr = some v) : memRead s .byte addr = zext16 v := by
  rw [memRead, loadByte_written h]

theorem memRead_half_of_written {lo hi : Byte} (hlo : s.mem.read addr = some lo)
    (hhi : s.mem.read (addr + 1) = some hi) : memRead s .half addr = joinLanes hi lo := by
  rw [memRead, loadByte_written hlo, loadByte_written hhi]

end

/-! ## The bytes an access touches, by its width -/

theorem touches_byte {addr x : Nat} : touches .byte addr x = true ↔ x = addr := by
  rw [touches_eq_true, highestTouched_byte]
  omega

theorem touches_half {addr x : Nat} : touches .half addr x = true ↔ x = addr ∨ x = addr + 1 := by
  rw [touches_eq_true, highestTouched_half]
  omega

/-! ## The reference procedure `Perform`, branch by branch -/

/-- `hi` of R45 in the request's own bits. -/
theorem highestTouched_accessWidth (r : Request) :
    highestTouched (accessWidth r) r.addr = r.addr + if r.w16 then 1 else 0 := by
  cases h : r.w16 <;> simp [accessWidth, h]

/-- A load of the reference sees what the model's load sees, with the model's draw for a byte never written (U1). -/
theorem refByte_eq_loadByte (s : State) (x : Nat) :
    refByte s.mem.read (Config.unwrittenByte s.draws) x = (s.loadByte x).toNat := by
  unfold refByte State.loadByte
  cases s.mem.read x <;> rfl

section
variable {capacity : Nat} {fresh : Nat → Byte} {M : RefArray} {r : Request}

theorem refPerform_idle (h : r.req = false) : refPerform capacity fresh M r = (M, Response.idle) := if_pos h

theorem refPerform_out (h : r.req = true) (hi : capacity ≤ highestTouched (accessWidth r) r.addr) :
    refPerform capacity fresh M r = (M, Response.outOfRange (highestTouched (accessWidth r) r.addr)) := by
  obtain ⟨req, we, w16, addr, wdata⟩ := r
  subst h
  cases w16 <;> exact if_pos hi

theorem refPerform_store (h : r.req = true) (hw : r.we = true)
    (hi : highestTouched (accessWidth r) r.addr < capacity) :
    refPerform capacity fresh M r =
      (fun x => if touches (accessWidth r) r.addr x then some (storedByte r x) else M x, Response.stored) := by
  obtain ⟨req, we, w16, addr, wdata⟩ := r
  subst h hw
  have hle := Nat.not_le.2 hi
  cases w16
  · refine (if_neg hle).trans (Prod.ext (funext fun x => ?_) rfl)
    by_cases hx : x = addr <;>
      simp [accessWidth, touches_byte, storedByte, lane0_eq_ofNat, hx]
  · refine (if_neg hle).trans (Prod.ext (funext fun x => ?_) rfl)
    by_cases hx : x = addr <;>
      simp [accessWidth, touches_half, storedByte, lane0_eq_ofNat, lane1_eq_ofNat, hx]

theorem refPerform_load {s : State} (h : r.req = true) (hw : r.we = false)
    (hi : highestTouched (accessWidth r) r.addr < s.params.capacity) :
    refPerform s.params.capacity (Config.unwrittenByte s.draws) s.mem.read r =
      (s.mem.read, Response.loaded (memRead s (accessWidth r) r.addr)) := by
  obtain ⟨req, we, w16, addr, wdata⟩ := r
  subst h hw
  have hle := Nat.not_le.2 hi
  cases w16
  · refine (if_neg hle).trans ?_
    simp [refByte_eq_loadByte, ← toNat_memRead_byte, Response.loaded, accessWidth]
  · refine (if_neg hle).trans ?_
    simp [refByte_eq_loadByte, ← toNat_memRead_half, Response.loaded, accessWidth]

end

/-- Every instruction is `Perform` on the request it was decoded from, seen through the reads of the array. -/
theorem exec_decode_refPerform {r : Request} {s t : State} (h : exec (decodeRequest r) s = .next t) :
    (t.mem.read, t.response s.port) =
      refPerform s.params.capacity (Config.unwrittenByte s.draws) s.mem.read r := by
  cases hq : r.req
  · rw [exec_decode_idle s hq] at h
    cases h
    simp [refPerform_idle hq]
  · rcases Nat.lt_or_ge (highestTouched (accessWidth r) r.addr) s.params.capacity with hin | hout
    · cases hw : r.we
      · rw [exec_decode_load_in hq hw hin] at h
        cases h
        simp [refPerform_load hq hw hin]
      · rw [exec_decode_store_in hq hw hin] at h
        cases h
        rw [refPerform_store hq hw hin, performStore_response, performStore_mem]
        exact Prod.ext (funext (read_memWrite s.mem r)) rfl
    · rw [exec_decode_out hq hout] at h
      cases h
      simp [refPerform_out hq hout]

/-! ## One edge -/

/-- An edge without reset is `Edge`: port A's `Perform`, and port B's on the array that it left. -/
theorem performEdge_refEdge (ra rb : Request) (s : State) :
    ∃ t freshA freshB, performEdge ra rb s = .next t ∧
      (t.mem.read, t.a, t.b) = refEdge s.params.capacity freshA freshB s.mem.read false ra rb := by
  obtain ⟨s1, s2, t, h1, h2, hedge, -, hparams, -, -, ha, hb, hmem, -⟩ := performEdge_facts ra rb s s.inputs
  have hA : (s1.mem.read, t.a) = refPerform s.params.capacity (Config.unwrittenByte s.draws) s.mem.read ra := by
    rw [ha]
    exact exec_decode_refPerform h1
  have hB : (t.mem.read, t.b) = refPerform s.params.capacity (Config.unwrittenByte s1.draws) s1.mem.read rb := by
    rw [hb, hmem, ← hparams]
    exact exec_decode_refPerform h2
  refine ⟨t, Config.unwrittenByte s.draws, Config.unwrittenByte s1.draws, hedge, ?_⟩
  simp only [refEdge, Bool.false_eq_true, if_false, ← hA, ← hB]

/-- Settles O25: a reset leaves the array and makes both responses idle; otherwise each port's instruction is `Perform` on
its request, with the model's own draws for the bytes never written. -/
theorem stepIsTheEdgeProcedure : Obligations.StepIsTheEdgeProcedure := by
  intro s rst ra rb rest h
  rw [step_of_presents h]
  cases rst with
  | true => exact ⟨resetEdge { s with inputs := rest }, fun _ => 0#8, fun _ => 0#8, if_pos rfl, rfl, rfl, rfl⟩
  | false =>
    obtain ⟨t, freshA, freshB, hedge, hsame⟩ := performEdge_refEdge ra rb { s with inputs := rest }
    obtain ⟨hparams, hinputs⟩ := performEdge_fixed hedge
    exact ⟨t, freshA, freshB, hedge, hinputs, hparams, hsame⟩

/-! ## Byte order and widths (R42, R43) -/

/-- Settles O20: the two multiplexers lane by lane, with the lanes as numbers. -/
theorem lowOrderByteLiesAtTheLowerAddress : Obligations.LowOrderByteLiesAtTheLowerAddress := by
  intro s addr v
  rw [← lane0_eq_ofNat, ← lane1_eq_ofNat]
  refine ⟨fun x => read_memWrite_byte .., fun x => ?_, fun lo hlo => ?_, fun lo hi hlo hhi => ?_⟩
  · rw [read_memWrite_half]
    by_cases hx : x = addr <;> simp [hx]
  · rw [toNat_memRead_byte, loadByte_written hlo]
  · rw [toNat_memRead_half, loadByte_written hlo, loadByte_written hhi]

section
variable {s : State} (p : Port) {addr : Nat}

theorem performLoad_serve_response (w : Width) :
    ((performLoad w addr (s.serve p)).response p) = Response.loaded (memRead s w addr) := by
  rw [← memRead_serve w addr s p]
  exact performLoad_response w addr (s.serve p)

/-- A LOAD8 of a written byte, on any port. -/
theorem exec_load8_of_written {v : Byte} (hin : addr < s.params.capacity) (h : s.mem.read addr = some v) :
    ∃ t, exec (.load8 addr) (s.serve p) = .next t ∧ (t.response p).rdata = zext16 v :=
  ⟨_, exec_load8_in (s := s.serve p) hin, by
    rw [performLoad_serve_response, memRead_byte_of_written h, Response.loaded]⟩

/-- A LOAD16 of two written bytes, on any port. -/
theorem exec_load16_of_written {lo hi : Byte} (hin : addr + 1 < s.params.capacity) (hlo : s.mem.read addr = some lo)
    (hhi : s.mem.read (addr + 1) = some hi) :
    ∃ t, exec (.load16 addr) (s.serve p) = .next t ∧ (t.response p).rdata = joinLanes hi lo :=
  ⟨_, exec_load16_in (s := s.serve p) hin, by
    rw [performLoad_serve_response, memRead_half_of_written hlo hhi, Response.loaded]⟩

/-- A STORE8 in range, on any port. -/
theorem exec_store8_serve (d : Byte) (hin : addr < s.params.capacity) :
    ∃ t, exec (.store8 addr d) (s.serve p) = .next t ∧ t.params = s.params ∧
      ∀ x, t.mem.read x = if x = addr then some d else s.mem.read x := by
  refine ⟨_, exec_store8_in (s := s.serve p) hin, performStore_params .., fun x => ?_⟩
  rw [performStore_mem, read_memWrite_byte, lane0_zext16, serve_mem]

/-- A STORE16 in range, on any port. -/
theorem exec_store16_serve (v : Half) (hin : addr + 1 < s.params.capacity) :
    ∃ t, exec (.store16 addr v) (s.serve p) = .next t ∧ t.params = s.params ∧
      ∀ x, t.mem.read x = if x = addr + 1 then some (lane1 v) else if x = addr then some (lane0 v) else s.mem.read x := by
  refine ⟨_, exec_store16_in (s := s.serve p) hin, performStore_params .., fun x => ?_⟩
  rw [performStore_mem, read_memWrite_half, serve_mem]

end

/-- Settles O21: the bytes after each store, and each load as the bytes that it finds. -/
theorem mixedWidthAccessesSeeOneLayout : Obligations.MixedWidthAccessesSeeOneLayout := by
  intro s p q o addr u v x y hin
  refine ⟨?_, ?_, ?_⟩
  · obtain ⟨s1, h1, hp1, hm1⟩ := exec_store16_serve (s := s) p v (addr := addr) (by omega)
    obtain ⟨s2, h2, hlo⟩ := exec_load8_of_written (s := s1) q (addr := addr) (v := lane0 v)
      (by rw [hp1]; omega) (by simp [hm1])
    obtain ⟨s3, h3, hhi⟩ := exec_load8_of_written (s := s1) o (addr := addr + 1) (v := lane1 v)
      (by rw [hp1]; omega) (by simp [hm1])
    refine ⟨s1, s2, s3, h1, h2, ?_, h3, ?_⟩
    · rw [hlo, toNat_zext16, toNat_lane0]
    · rw [hhi, toNat_zext16, toNat_lane1]
  · obtain ⟨s1, h1, hp1, hm1⟩ := exec_store8_serve (s := s) p x (addr := addr) (by omega)
    obtain ⟨s2, h2, hp2, hm2⟩ := exec_store8_serve (s := s1) q y (addr := addr + 1) (by rw [hp1]; omega)
    obtain ⟨s3, h3, hval⟩ := exec_load16_of_written (s := s2) o (addr := addr) (lo := x) (hi := y)
      (by rw [hp2, hp1]; omega) (by simp [hm2, hm1]) (by simp [hm2])
    refine ⟨s1, s2, s3, h1, h2, h3, ?_⟩
    rw [hval, toNat_joinLanes]
  · obtain ⟨s1, h1, hp1, hm1⟩ := exec_store16_serve (s := s) p u (addr := addr) (by omega)
    obtain ⟨s2, h2, -, hm2⟩ := exec_store16_serve (s := s1) q v (addr := addr + 1) (by rw [hp1]; omega)
    exact ⟨s1, s2, h1, h2, by simp [hm2, hm1, Nat.add_assoc], by simp [hm2], by simp [hm2]⟩

/-! ## Repetition (R54) -/

/-- Writing again what was just written there changes nothing. -/
theorem write_write_same (m : Memory) (a : Nat) (v : Byte) : (m.write a v).write a v = m.write a v := by
  induction m with
  | nil => simp [Memory.write]
  | cons c rest ih =>
    obtain ⟨k, w⟩ := c
    by_cases hlt : a < k
    · simp [Memory.write, hlt]
    · by_cases heq : a = k
      · simp [Memory.write, heq]
      · simp [Memory.write, hlt, heq, ih]

/-- A write that changes nothing still changes nothing after a write at a higher address. -/
theorem write_eq_self_after {m : Memory} {a b : Nat} {v : Byte} (w : Byte) (hab : a < b) (h : m.write a v = m) :
    (m.write b w).write a v = m.write b w := by
  induction m with
  | nil => cases h
  | cons c rest ih =>
    obtain ⟨k, x⟩ := c
    rcases Nat.lt_trichotomy a k with hlt | rfl | hgt
    · simp [Memory.write, hlt] at h
    · have hv : v = x := by simpa [Memory.write] using h
      simp [Memory.write, Nat.lt_asymm hab, hab.ne', hv]
    · have hb : k < b := hgt.trans hab
      have hrest : Memory.write rest a v = rest := by simpa [Memory.write, Nat.lt_asymm hgt, hgt.ne'] using h
      simp [Memory.write, Nat.lt_asymm hgt, hgt.ne', Nat.lt_asymm hb, hb.ne', ih hrest]

theorem memWrite_memWrite_same (m : Memory) (w : Width) (addr : Nat) (v : Half) :
    memWrite (memWrite m w addr v) w addr v = memWrite m w addr v := by
  cases w
  · exact write_write_same ..
  · have hlow : (memWrite m .half addr v).write addr (lane0 v) = memWrite m .half addr v :=
      write_eq_self_after _ (Nat.lt_succ_self addr) (write_write_same ..)
    calc memWrite (memWrite m .half addr v) .half addr v
        = (memWrite m .half addr v).write (addr + 1) (lane1 v) := by rw [memWrite, hlow]
      _ = memWrite m .half addr v := write_write_same ..

/-- Two states with the same array load the same value where every touched byte has been written: no draw is used. -/
theorem memRead_congr_of_written {s t : State} {w : Width} {addr : Nat} (hm : t.mem = s.mem)
    (h : ∀ x, touches w addr x = true → s.mem.read x ≠ none) : memRead t w addr = memRead s w addr := by
  have hbyte : ∀ x, touches w addr x = true → t.loadByte x = s.loadByte x := fun x hx => by
    obtain ⟨v, hv⟩ := Option.ne_none_iff_exists'.1 (h x hx)
    rw [loadByte_written hv, loadByte_written (hm ▸ hv)]
  cases w
  · rw [memRead, memRead, hbyte addr (touches_byte.2 rfl)]
  · rw [memRead, memRead, hbyte addr (touches_half.2 (.inl rfl)), hbyte (addr + 1) (touches_half.2 (.inr rfl))]

/-- Settles O23: a failed request only answers, a load leaves the array it reads, a store writes what is already there. -/
theorem repeatedAccessIsIdempotent : Obligations.RepeatedAccessIsIdempotent := by
  intro s r hq hwritten
  obtain ⟨t, ht⟩ := exec_next (decodeRequest r) s
  obtain ⟨u, hu⟩ := exec_next (decodeRequest r) t
  refine ⟨t, u, ht, hu, ?_⟩
  obtain ⟨hparams, -, hport⟩ := exec_fixed ht
  rw [← hport]
  rcases Nat.lt_or_ge (highestTouched (accessWidth r) r.addr) s.params.capacity with hin | hout
  · have hin' : highestTouched (accessWidth r) r.addr < t.params.capacity := hparams ▸ hin
    cases hw : r.we
    · rw [exec_decode_load_in hq hw hin'] at hu
      rw [exec_decode_load_in hq hw hin] at ht
      cases hu
      cases ht
      rw [performLoad_response, memRead_congr_of_written (performLoad_mem ..) hwritten]
      simp
    · rw [exec_decode_store_in hq hw hin'] at hu
      rw [exec_decode_store_in hq hw hin] at ht
      cases hu
      cases ht
      rw [performStore_response]
      simp [memWrite_memWrite_same]
  · have hout' : t.params.capacity ≤ highestTouched (accessWidth r) r.addr := hparams ▸ hout
    rw [exec_decode_out hq hout'] at hu
    rw [exec_decode_out hq hout] at ht
    cases hu
    cases ht
    rw [raiseOutOfRange_response]
    simp

/-! ## What the ports of one edge see of each other (R53, R57, R159) -/

/-- If the request is a load that passes the check, the response holds the value that the load reads in `m`. -/
def LoadsFrom (capacity : Nat) (r : Request) (m : State) (resp : Response) : Prop :=
  r.req = true → r.we = false → highestTouched (accessWidth r) r.addr < capacity →
    resp.rdata = memRead m (accessWidth r) r.addr

theorem exec_serve_loadsFrom {r : Request} {p : Port} {s t : State}
    (h : exec (decodeRequest r) (s.serve p) = .next t) : LoadsFrom s.params.capacity r s (t.response p) := by
  intro hq hw hin
  rw [exec_decode_load_in (s := s.serve p) hq hw hin] at h
  cases h
  rw [performLoad_serve_response, Response.loaded]

/-- What is listed for later steps is nothing that a load reads. -/
theorem memRead_inputs (s : State) (rest : List Stimulus) (w : Width) (addr : Nat) :
    memRead { s with inputs := rest } w addr = memRead s w addr := by
  cases w <;> rfl

/-- `t` is what an edge without reset makes of `s`, and `mid` is the state between port A's request and port B's: the bytes
that each request leaves, and the state that each load reads. -/
structure EdgeOf (s : State) (ra rb : Request) (mid t : State) : Prop where
  read_mid : ∀ x, mid.mem.read x = if storesByte s.params.capacity ra x then some (storedByte ra x) else s.mem.read x
  read_end : ∀ x, t.mem.read x = if storesByte s.params.capacity rb x then some (storedByte rb x) else mid.mem.read x
  load_a : LoadsFrom s.params.capacity ra s t.a
  load_b : LoadsFrom s.params.capacity rb mid t.b

theorem step_edgeOf {s : State} {ra rb : Request} {rest : List Stimulus} (h : s.Presents false ra rb rest) :
    ∃ mid t, step s = .next t ∧ EdgeOf s ra rb mid t := by
  obtain ⟨s1, s2, t, h1, h2, hedge, -, hparams, -, -, ha, hb, -, hread1, hread2⟩ := performEdge_facts ra rb s rest
  refine ⟨s1, t, (step_of_presents h).trans hedge, hread1, hread2, fun hq hw hin => ?_, ?_⟩
  · rw [ha, exec_serve_loadsFrom h1 hq hw hin, memRead_inputs]
  · rw [hb, ← hparams]
    exact exec_serve_loadsFrom h2

section
variable {capacity : Nat} {r : Request}

theorem storesByte_of_load (h : r.we = false) (x : Nat) : storesByte capacity r x = false := by
  rw [storesByte, h, Bool.false_and]

/-- A byte that a performed store names lies below CAPACITY. -/
theorem lt_capacity_of_storesByte {x : Nat} (h : storesByte capacity r x = true) : x < capacity := by
  obtain ⟨-, hin, htouch⟩ := accessesByte_eq_true.1 (storesByte_eq_true.1 h).2
  exact lt_of_le_of_lt (touches_eq_true.1 htouch).2 hin

theorem accessWidth_byte (h : r.w16 = false) : accessWidth r = .byte := by simp [accessWidth, h]

theorem accessWidth_half (h : r.w16 = true) : accessWidth r = .half := by simp [accessWidth, h]

end

section
variable {capacity : Nat} {r : Request} {m : State} {resp : Response}

/-- A LOAD8 of a byte that is written in the state it reads. -/
theorem LoadsFrom.load8 {v : Byte} (h : LoadsFrom capacity r m resp) (hq : r.req = true) (hw : r.we = false)
    (h16 : r.w16 = false) (hin : r.addr < capacity) (hv : m.mem.read r.addr = some v) : resp.rdata = zext16 v := by
  have hload := h hq hw
  rw [accessWidth_byte h16] at hload
  rw [hload hin, memRead_byte_of_written hv]

/-- A LOAD16 of two bytes that are written in the state it reads. -/
theorem LoadsFrom.load16 {lo hi : Byte} (h : LoadsFrom capacity r m resp) (hq : r.req = true) (hw : r.we = false)
    (h16 : r.w16 = true) (hin : r.addr + 1 < capacity) (hlo : m.mem.read r.addr = some lo)
    (hhi : m.mem.read (r.addr + 1) = some hi) : resp.rdata = joinLanes hi lo := by
  have hload := h hq hw
  rw [accessWidth_half h16] at hload
  rw [hload hin, memRead_half_of_written hlo hhi]

end

section
variable {s mid t : State} {ra rb : Request} (e : EdgeOf s ra rb mid t) {x : Nat}
include e

/-- Where port B stores nothing, the array after the edge is the one that port A's request left. -/
theorem EdgeOf.read_mid_of_not_stored (hb : storesByte s.params.capacity rb x = false) :
    mid.mem.read x = t.mem.read x := by
  rw [e.read_end, hb]
  rfl

/-- A byte that port A's request stores, before port B's request. -/
theorem EdgeOf.read_mid_of_stored (ha : storesByte s.params.capacity ra x = true) :
    mid.mem.read x = some (storedByte ra x) := by
  rw [e.read_mid, if_pos ha]

end

/-- Settles O26: port B's bytes lie over those of port A, its loads read the state between the two requests, and port A's
loads read the state before both. -/
theorem portAComesBeforePortB : Obligations.PortAComesBeforePortB := by
  intro s ra rb rest h
  obtain ⟨mid, t, hstep, e⟩ := step_edgeOf h
  refine ⟨t, hstep, fun x hb => ?_, fun x hb ha => ?_, fun x hb ha => ?_, fun hq hw h16 ha => ?_,
    fun v hq hw h16 hin hv => e.load_a.load8 hq hw h16 hin hv⟩
  · rw [e.read_end, if_pos hb]
  · rw [← e.read_mid_of_not_stored hb, e.read_mid_of_stored ha]
  · rw [← e.read_mid_of_not_stored hb, e.read_mid, ha]
    rfl
  · exact e.load_b.load8 hq hw h16 (lt_capacity_of_storesByte ha) (e.read_mid_of_stored ha)

theorem decodeRequest_eq_load16 {r : Request} {addr : Nat} (h : decodeRequest r = .load16 addr) :
    r.req = true ∧ r.we = false ∧ r.w16 = true ∧ r.addr = addr := by
  obtain ⟨req, we, w16, a, wdata⟩ := r
  cases req <;> cases we <;> cases w16 <;> cases h
  exact ⟨rfl, rfl, rfl, rfl⟩

theorem decodeRequest_eq_store16 {r : Request} {addr : Nat} {v : Half} (h : decodeRequest r = .store16 addr v) :
    r = { req := true, we := true, w16 := true, addr, wdata := v } := by
  obtain ⟨req, we, w16, a, wdata⟩ := r
  cases req <;> cases we <;> cases w16 <;> cases h
  rfl

/-- A performed STORE16 names the byte at its address and the next one, and puts lane 0 and lane 1 there (R49). -/
theorem store16_stores {capacity addr : Nat} {v : Half} {r : Request}
    (hr : r = { req := true, we := true, w16 := true, addr, wdata := v }) (hin : addr + 1 < capacity) :
    (storesByte capacity r addr = true ∧ storedByte r addr = lane0 v) ∧
      storesByte capacity r (addr + 1) = true ∧ storedByte r (addr + 1) = lane1 v := by
  subst hr
  refine ⟨⟨storesByte_eq_true.2 ⟨rfl, accessesByte_eq_true.2 ⟨rfl, hin, touches_half.2 (.inl rfl)⟩⟩, ?_⟩,
    storesByte_eq_true.2 ⟨rfl, accessesByte_eq_true.2 ⟨rfl, hin, touches_half.2 (.inr rfl)⟩⟩, ?_⟩ <;>
    simp [storedByte]

/-- Settles O27: a LOAD16 reads both its bytes from one state, port A's from the state before the edge and port B's from
the one that port A's whole request left. -/
theorem sixteenBitAccessIsAtomic : Obligations.SixteenBitAccessIsAtomic := by
  intro s ra rb rest h
  obtain ⟨mid, t, hstep, e⟩ := step_edgeOf h
  refine ⟨t, hstep, fun lo hi hq hw h16 hin hlo hhi => ?_,
    fun lo hi hq hw h16 hin hlo hhi => e.load_a.load16 hq hw h16 hin hlo hhi, fun hstore hload hin => ?_⟩
  · have hsame := fun x => e.read_mid_of_not_stored (storesByte_of_load hw x)
    exact e.load_b.load16 hq hw h16 hin ((hsame _).trans hlo) ((hsame _).trans hhi)
  · obtain ⟨hq, hw, h16, -⟩ := decodeRequest_eq_load16 hload
    obtain ⟨⟨hs0, hv0⟩, hs1, hv1⟩ := store16_stores (decodeRequest_eq_store16 hstore) hin
    rw [e.load_b.load16 hq hw h16 hin (e.read_mid_of_stored hs0) (e.read_mid_of_stored hs1), hv0, hv1, joinLanes_lanes]

/-! ## The decoded instructions of a step (R58, R71, R77) -/

/-- A word of the format decodes to the instruction of the request that it packs. -/
theorem decodeWord_of_lt {aw w : Nat} (h : w < 2 ^ (aw + 19)) : decodeWord aw w = .ok (decodeRequest (unpack aw w)) :=
  if_pos h

/-- Settles O7: the edge procedure itself, and the decoder on a word of the format. -/
theorem stepRunsTheDecodedRequests : Obligations.StepRunsTheDecodedRequests := by
  intro s ra rb rest h
  refine ⟨step_of_presents h, fun w hw hra => ?_, fun w hw hrb => ?_⟩
  · rw [hra, decodeWord_of_lt hw]
  · rw [hrb, decodeWord_of_lt hw]

/-! ## The bounds check (R45, R47) -/

/-- A request that passes the check raises no error. -/
theorem exec_decode_err_of_in {r : Request} {s t : State} (h : exec (decodeRequest r) s = .next t) (hq : r.req = true)
    (hin : highestTouched (accessWidth r) r.addr < s.params.capacity) : (t.response s.port).err = false := by
  cases hw : r.we
  · rw [exec_decode_load_in hq hw hin] at h
    cases h
    rw [performLoad_response, Response.loaded]
  · rw [exec_decode_store_in hq hw hin] at h
    cases h
    rw [performStore_response, Response.stored]

/-- Settles O9: the forms of the check are one comparison, and the check alone decides between the access and the error. -/
theorem boundsCheckIsExact : Obligations.BoundsCheckIsExact := by
  intro p w addr hlegal haddr
  refine ⟨rfl, highestTouched_lt w haddr, inRange_eq_true, ?_, ?_, ?_⟩
  · rintro rfl
    exact inRange_eq_true
  · rintro rfl
    obtain ⟨-, hcap, -⟩ := hlegal
    refine ⟨inRange_eq_true, ?_⟩
    rw [inRange_eq_false, highestTouched_half]
    omega
  · rintro s r rfl hq rfl rfl
    obtain ⟨t, ht⟩ := exec_next (decodeRequest r) s
    refine ⟨t, ht, (exec_decode_ack ht).trans hq, fun hin => ?_, fun hout => ?_⟩
    · exact exec_decode_err_of_in ht hq (inRange_eq_true.1 hin)
    · rw [exec_decode_out hq (inRange_eq_false.1 hout)] at ht
      cases ht
      exact raiseOutOfRange_response ..

/-- A request that fails the check answers with its exact highest touched address and leaves every byte (R47, R133). -/
theorem exec_decode_out_facts {r : Request} {s : State} (hq : r.req = true)
    (hout : s.params.capacity ≤ highestTouched (accessWidth r) r.addr) :
    ∃ t, exec (decodeRequest r) s = .next t ∧ (t.response s.port).err = true ∧
      (t.response s.port).errAddr = highestTouched (accessWidth r) r.addr ∧ ∀ x, t.mem.read x = s.mem.read x := by
  refine ⟨_, exec_decode_out hq hout, ?_, ?_, fun x => ?_⟩
  · rw [raiseOutOfRange_response, Response.outOfRange]
  · rw [raiseOutOfRange_response, Response.outOfRange]
  · rw [raiseOutOfRange_mem]

/-- Settles O12: both addresses fail the check, the topmost because CAPACITY is at most 2^AW. -/
theorem addressesNeverWrap : Obligations.AddressesNeverWrap := by
  intro s r hlegal hq haddr
  obtain ⟨-, -, hcap⟩ := hlegal
  have hhi := highestTouched_accessWidth r
  refine ⟨fun h16 htop => ?_, fun hout => ?_⟩
  · have hwrap : highestTouched (accessWidth r) r.addr = 2 ^ s.params.aw := by
      rw [hhi, if_pos h16, htop, Nat.sub_add_cancel Nat.one_le_two_pow]
    rw [← hwrap]
    exact exec_decode_out_facts hq (hwrap ▸ hcap)
  · rw [← hhi]
    exact exec_decode_out_facts hq (hout.trans (hhi ▸ Nat.le_add_right ..))

end Sys2Proof.Machine
end

section
/-! Proofs for the statements on the encoding: the fields of a packed word, the decoder on every word, the encoder it
inverts, and the steps that the decoded requests lead to. -/

namespace Sys2Proof.Machine

/-! ## Decoding what the encoder wrote -/

/-- Every field of a representable request can be read back from its packed word (R71). -/
theorem unpack_pack {aw : Nat} {r : Request} (h : r.Representable aw) : unpack aw (pack aw r) = r := by
  simp only [unpack, pack_req, pack_we, pack_w16, pack_addr h, pack_wdata h, bitNat_beq_one, BitVec.ofNat_toNat,
    BitVec.setWidth_eq]

theorem decodeWord_pack {aw : Nat} {r : Request} (h : r.Representable aw) :
    decodeWord aw (pack aw r) = .ok (decodeRequest r) := by
  rw [decodeWord_of_lt (pack_lt h), unpack_pack h]

/-- The request that presents a well-formed instruction is representable and selects that instruction (R77). -/
theorem encodeRequest_statement (i : Instr) : Laws.EncodeRequest.Statement i := by
  cases i with
  | nop => exact Laws.EncodeRequest.nop
  | load8 addr => exact Laws.EncodeRequest.load8 addr
  | load16 addr => exact Laws.EncodeRequest.load16 addr
  | store8 addr data => exact Laws.EncodeRequest.store8 addr data
  | store16 addr data => exact Laws.EncodeRequest.store16 addr data

/-- Settles O4: the word packs a representable request, which selects the instruction that was encoded. -/
theorem decodeInvertsEncode : Obligations.DecodeInvertsEncode := by
  intro aw i hi
  obtain ⟨hrep, hdecode⟩ := encodeRequest_statement i aw hi
  refine ⟨pack_lt hrep, ?_⟩
  rw [encodeWord, decodeWord_pack hrep, hdecode]

/-! ## The fields of a packed word, bit by bit -/

/-- A field of one bit is that bit of the word. -/
theorem testBit_eq_bitField (k w : Nat) : w.testBit k = (bitField k 1 w == 1) := by
  rw [Nat.testBit_eq_decide_div_mod_eq, bitField, pow_one, beq_eq_decide]

/-- Bit `k` of a field that starts at bit `lo` is bit `lo + k` of the word. -/
theorem testBit_bitField {lo n w k : Nat} (h : k < n) : (bitField lo n w).testBit k = w.testBit (lo + k) := by
  rw [bitField, Nat.testBit_mod_two_pow, Nat.testBit_div_two_pow, decide_eq_true h, Bool.true_and, Nat.add_comm]

theorem bitNat_eq_toNat (b : Bool) : bitNat b = b.toNat := by cases b <;> rfl

/-- R71's formula, at every address width: the fields shifted to their places do not overlap, so their sum is their or. -/
theorem pack_eq_or {aw : Nat} {r : Request} (h : r.Representable aw) :
    pack aw r =
      r.wdata.toNat <<< (aw + 3) ||| r.addr <<< 3 ||| r.w16.toNat <<< 2 ||| r.we.toNat <<< 1 ||| r.req.toNat := by
  have hreq : r.req.toNat < 2 ^ 1 := r.req.toNat_lt
  have hwe : r.we.toNat <<< 1 + r.req.toNat < 2 ^ 2 := by
    have := r.we.toNat_lt
    rw [Nat.shiftLeft_eq]
    omega
  have hw16 : r.w16.toNat <<< 2 + (r.we.toNat <<< 1 + r.req.toNat) < 2 ^ 3 := by
    have := r.w16.toNat_lt
    rw [Nat.shiftLeft_eq]
    omega
  have haddr : r.addr <<< 3 + (r.w16.toNat <<< 2 + (r.we.toNat <<< 1 + r.req.toNat)) < 2 ^ (aw + 3) := by
    have hfield : r.addr < 2 ^ aw := h
    rw [Nat.shiftLeft_eq, pow_add]
    omega
  rw [Nat.or_assoc, Nat.or_assoc, Nat.or_assoc, ← Nat.shiftLeft_add_eq_or_of_lt hreq,
    ← Nat.shiftLeft_add_eq_or_of_lt hwe, ← Nat.shiftLeft_add_eq_or_of_lt hw16, ← Nat.shiftLeft_add_eq_or_of_lt haddr]
  simp only [pack, bitNat_eq_toNat, Nat.shiftLeft_eq]
  ring

/-- Settles O2: each bit is the field's own bit, read back from the word. -/
theorem packedWordHoldsEachFieldAtItsBits : Obligations.PackedWordHoldsEachFieldAtItsBits := by
  intro aw r h
  refine ⟨pack_lt h, ?_, ?_, ?_, fun k hk => ?_, fun k hk => ?_, unpack_pack h, ?_⟩
  · rw [testBit_eq_bitField, pack_req, bitNat_beq_one]
  · rw [testBit_eq_bitField, pack_we, bitNat_beq_one]
  · rw [testBit_eq_bitField, pack_w16, bitNat_beq_one]
  · rw [← testBit_bitField hk, pack_addr h]
  · rw [← testBit_bitField hk, pack_wdata h, BitVec.testBit_toNat]
  · rintro rfl
    exact pack_eq_or h

/-! ## Every word (R77, R78) -/

theorem decodeRequest_of_not_req {r : Request} (h : r.req = false) : decodeRequest r = .nop := by
  simp only [decodeRequest, h]

/-- A word by its three control bits: the other two fields are the address and the data. -/
theorem unpack_of_control {w : Nat} {req we w16 : Bool} (aw : Nat)
    (h : w % 8 = bitNat req + 2 * bitNat we + 4 * bitNat w16) :
    unpack aw w = { req, we, w16, addr := w / 8 % 2 ^ aw, wdata := BitVec.ofNat 16 (w / 2 ^ (aw + 3)) } := by
  have := bitNat_lt req
  have := bitNat_lt we
  have := bitNat_lt w16
  have hreq : bitField 0 1 w = bitNat req := by rw [bitField]; omega
  have hwe : bitField 1 1 w = bitNat we := by rw [bitField]; omega
  have hw16 : bitField 2 1 w = bitNat w16 := by rw [bitField]; omega
  have hdata : BitVec.ofNat 16 (bitField (aw + 3) 16 w) = BitVec.ofNat 16 (w / 2 ^ (aw + 3)) :=
    BitVec.eq_of_toNat_eq (Nat.mod_mod ..)
  simp only [unpack, hreq, hwe, hw16, bitNat_beq_one, hdata]
  rfl

/-- Lane 0 of a word's data field (R48). -/
theorem lane0_ofNat (n : Nat) : lane0 (BitVec.ofNat 16 n) = BitVec.ofNat 8 n := by
  apply BitVec.eq_of_toNat_eq
  rw [toNat_lane0, BitVec.toNat_ofNat, BitVec.toNat_ofNat]
  omega

/-- Settles O3: the control bits as three values, and the row of R77 that they select. -/
theorem controlBitsSelectOneOperation : Obligations.ControlBitsSelectOneOperation := by
  intro aw w hw
  rw [decodeWord_of_lt hw]
  refine ⟨fun h => ?_, fun h => ?_, fun h => ?_, fun h => ?_, fun h => ?_⟩
  · have hreq : (unpack aw w).req = false := by simp [unpack, bitField, h]
    rw [decodeRequest_of_not_req hreq]
  · rw [unpack_of_control (req := true) (we := false) (w16 := false) aw h, decodeRequest]
  · rw [unpack_of_control (req := true) (we := false) (w16 := true) aw h, decodeRequest]
  · rw [unpack_of_control (req := true) (we := true) (w16 := false) aw h, ← lane0_ofNat]
    rfl
  · rw [unpack_of_control (req := true) (we := true) (w16 := true) aw h, decodeRequest]

/-- The operand address of a decoded request is the one its pins carry (R75). -/
theorem decodeRequest_wellFormed {aw : Nat} {r : Request} (h : r.Representable aw) :
    (decodeRequest r).wellFormed aw = true := by
  obtain ⟨req, we, w16, addr, wdata⟩ := r
  cases req
  · rfl
  · cases we <;> cases w16 <;> exact decide_eq_true h

/-- A word with a bit above those of the format is no request. -/
theorem decodeWord_of_ge {aw w : Nat} (h : 2 ^ (aw + 19) ≤ w) : decodeWord aw w = .error .wordTooWide :=
  if_neg (Nat.not_lt.2 h)

/-- Settles O5: the address field of any word has AW bits. -/
theorem decodeIsTotalAndWellFormed : Obligations.DecodeIsTotalAndWellFormed :=
  fun aw w => ⟨fun h => ⟨_, decodeWord_of_lt h, decodeRequest_wellFormed (unpack_representable aw w)⟩, decodeWord_of_ge⟩

/-- Settles O1: each word is decoded by evaluation. -/
theorem vectorWordsDecodeAsWritten : Obligations.VectorWordsDecodeAsWritten :=
  ⟨by decide, by decide, by decide, by decide, by decide, by decide⟩

/-! ## Ignored fields (R78) -/

/-- Requests that differ only in fields their operation ignores are decoded alike. -/
theorem decodeRequest_congr {r r' : Request} (h : sameOperation r r') : decodeRequest r = decodeRequest r' := by
  obtain ⟨req, we, w16, addr, wdata⟩ := r
  obtain ⟨req', we', w16', addr', wdata'⟩ := r'
  obtain ⟨rfl, hops⟩ := h
  cases req
  · rfl
  · obtain ⟨rfl, rfl, rfl, hdata⟩ := hops rfl
    cases we
    · cases w16 <;> rfl
    · obtain ⟨hlane, hwhole⟩ := hdata rfl
      cases w16
      · exact congrArg (Instr.store8 addr) hlane
      · exact congrArg (Instr.store16 addr) (hwhole rfl)

theorem performEdge_congr {ra ra' rb rb' : Request} (s : State) (ha : sameOperation ra ra') (hb : sameOperation rb rb') :
    performEdge ra rb s = performEdge ra' rb' s := by
  simp only [performEdge, performRequest, decodeRequest_congr ha, decodeRequest_congr hb]

/-- Whatever else a request that fails the check holds, its port's response raises the error (R131). -/
theorem exec_decode_err_of_out {r : Request} {s t : State} (h : exec (decodeRequest r) s = .next t) (hq : r.req = true)
    (hout : s.params.capacity ≤ highestTouched (accessWidth r) r.addr) : (t.response s.port).err = true := by
  obtain ⟨_, hnext, herr, -⟩ := exec_decode_out_facts hq hout
  cases h.symm.trans hnext
  exact herr

/-- Settles O6: the edge always completes, and it looks at the decoded instructions only. -/
theorem everyBundleIsDefinedAndIgnoredFieldsDoNotMatter :
    Obligations.EveryBundleIsDefinedAndIgnoredFieldsDoNotMatter := by
  intro s ra rb ra' rb' rest h ha hb hra' hrb'
  obtain ⟨s1, s2, t, h1, h2, hedge, -, hparams, -, -, hta, htb, -⟩ := performEdge_facts ra rb s rest
  have h' : State.Presents
      { s with inputs := .edge { rst := .driven false, a := .driven ra', b := .driven rb' } :: rest }
      false ra' rb' rest := ⟨h.1, hra', hrb', rfl⟩
  refine ⟨t, (step_of_presents h).trans hedge, ?_, fun hq hout => ?_, fun hq hout => ?_⟩
  · rw [step_of_presents h']
    exact (performEdge_congr _ ha hb).symm.trans hedge
  · rw [hta]
    exact exec_decode_err_of_out h1 hq hout
  · rw [htb]
    exact exec_decode_err_of_out h2 hq (by rwa [serve_params, hparams])

/-! ## Idle ports (R81, R120) -/

theorem idle_representable (aw : Nat) : Request.idle.Representable aw := Nat.two_pow_pos aw

/-- An edge at which port B presents nothing is port A's instruction and the idle response on port B. -/
theorem performEdge_idle_b (ra : Request) (s : State) :
    performEdge ra Request.idle s =
      andThen (exec (decodeRequest ra) (s.serve .a)) fun s1 =>
        .next (((s1.serve .b).setResponse .b Response.idle).serve .a) := rfl

/-- A table word that decodes is read as a request at AW = 16 (log 10). -/
theorem decodeRequest_of_decodeTableWord {nbits w : Nat} {i : Instr} (h : decodeTableWord nbits w = some i) :
    decodeRequest (unpack 16 w) = i := by
  rcases Nat.lt_or_ge w (2 ^ (tableAddressWidth + 19)) with hlt | hge
  · rw [decodeTableWord, decodeWord_of_lt hlt] at h
    exact Option.some.inj h
  · rw [decodeTableWord, decodeWord_of_ge hge] at h
    cases h

/-- Settles O8: the next edge presents the unpacked word on port A and nothing on port B. -/
theorem presentedTableWordRunsNext : Obligations.PresentedTableWordRunsNext := by
  intro s nbits w i hlegal haw hdecode
  have hpresents : (s.withFetchWord nbits w).Presents false (unpack 16 w) Request.idle s.inputs :=
    ⟨hlegal, haw ▸ unpack_representable 16 w, idle_representable _, rfl⟩
  rw [step_of_presents hpresents, ← decodeRequest_of_decodeTableWord hdecode]
  exact performEdge_idle_b (unpack 16 w) s

/-- The step when no inputs are listed is an edge at which neither port presents anything (R81). -/
theorem step_of_unlisted {s : State} (hlegal : s.params.Legal) (hinputs : s.inputs = []) :
    step s = performEdge Request.idle Request.idle s := by
  rw [step, nextEvent, if_pos hlegal, hinputs]
  exact clockEdge_driven (idle_representable _) (idle_representable _)

/-- Settles O38: NOP on both ports writes the two responses only. -/
theorem unlistedEdgeIsIdle : Obligations.UnlistedEdgeIsIdle := by
  intro s hlegal hinputs
  rw [step_of_unlisted hlegal hinputs, performEdge_idle_b, exec_decode_idle _ rfl]
  exact ⟨_, rfl, rfl, rfl, rfl, rfl, hinputs, rfl⟩

/-! ## The capacity output (R83) -/

/-- A legal CAPACITY fits AW+1 bits (R6). -/
theorem capacity_lt_of_legal {p : Params} (h : p.Legal) : p.capacity < 2 ^ (p.aw + 1) := by
  obtain ⟨-, -, hcap⟩ := h
  exact lt_of_le_of_lt hcap (Nat.pow_lt_pow_succ Nat.one_lt_two)

/-- Settles O39: the output is a parameter, and no step changes the parameters. -/
theorem capacityOutputIsConstant : Obligations.CapacityOutputIsConstant := by
  intro s
  refine ⟨rfl, capacity_lt_of_legal, fun t h => ?_⟩
  obtain ⟨hparams, -⟩ := step_fixed h
  exact ⟨congrArg Params.capacity hparams, hparams⟩

end Sys2Proof.Machine
end

section
/-! Proofs for the statements on the stores: which bytes a store in range changes, what it leaves unchanged, and the load that
reads it back. -/

namespace Sys2Proof.Machine

/-! ## What a store in range changes (R100, R101) -/

/-- A store writes the array and its own port's response, and nothing else. -/
theorem performStore_sameOutside (w : Width) (addr : Nat) (v : Half) (s : State) :
    SameOutside s.port s (performStore w addr v s) :=
  ⟨performStore_params .., performStore_inputs .., performStore_port .., performStore_response_other ..⟩

/-- The request of STORE8 selects it with lane 0 of the data, whatever lane 1 holds (R48, R77). -/
theorem decodeRequest_store8 (addr : Nat) (hi data : Byte) :
    decodeRequest { req := true, we := true, w16 := false, addr, wdata := joinLanes hi data } = .store8 addr data :=
  congrArg (Instr.store8 addr) (lane0_joinLanes hi data)

/-- Settles O18: the store in range is performed, and its write touches one address. -/
theorem store8WritesExactlyOneByte : Obligations.Store8WritesExactlyOneByte := by
  intro s addr data hi hin
  refine ⟨decodeRequest_store8 addr hi data, _, exec_store8_in hin, performStore_response .., ?_, fun x hx => ?_,
    performStore_draws .., performStore_sameOutside ..⟩
  · simp [read_memWrite_byte]
  · simp [read_memWrite_byte, hx]

/-- Settles O19: the store in range is performed, and its two writes put lane 0 at the lower address. -/
theorem store16WritesLowByteFirst : Obligations.Store16WritesLowByteFirst := by
  intro s addr data hin
  rw [← lane0_eq_ofNat, ← lane1_eq_ofNat]
  refine ⟨_, exec_store16_in hin, performStore_response .., ?_, ?_, fun x hlo hhi => ?_, performStore_draws ..,
    performStore_sameOutside ..⟩
  · simp [read_memWrite_half]
  · simp [read_memWrite_half]
  · simp [read_memWrite_half, hlo, hhi]

/-! ## A load after a store of the same width (W1, W2) -/

theorem memRead_byte_performStore (addr : Nat) (d : Byte) (s : State) :
    memRead (performStore .byte addr (zext16 d) s) .byte addr = zext16 d :=
  memRead_byte_of_written (by simp [read_memWrite_byte])

theorem memRead_half_performStore (addr : Nat) (v : Half) (s : State) :
    memRead (performStore .half addr v s) .half addr = v := by
  rw [memRead_half_of_written (lo := lane0 v) (hi := lane1 v), joinLanes_lanes]
  · simp [read_memWrite_half]
  · simp [read_memWrite_half]

/-- Settles O22: the store keeps CAPACITY, so the load passes its check too, and it reads the bytes just written. -/
theorem loadAfterStoreGivesTheStoredValue : Obligations.LoadAfterStoreGivesTheStoredValue := by
  intro s p q addr d v
  refine ⟨fun hin => ?_, fun hin => ?_⟩
  · refine ⟨_, _, exec_store8_in (s := s.serve p) hin, exec_load8_in (by simpa using hin), ?_⟩
    rw [performLoad_serve_response, memRead_byte_performStore]
    exact ⟨rfl, rfl, rfl⟩
  · refine ⟨_, _, exec_store16_in (s := s.serve p) hin, exec_load16_in (by simpa using hin), ?_⟩
    rw [performLoad_serve_response, memRead_half_performStore]
    exact ⟨rfl, rfl, rfl⟩

end Sys2Proof.Machine
end

section
/-! Proofs for the statements on the loads: the value that a load in range returns, lane by lane, and what it leaves
unchanged. -/

namespace Sys2Proof.Machine

/-! ## What a load in range changes (R54) -/

/-- A load writes the draw counter and its own port's response, and nothing else. -/
theorem performLoad_sameOutside (w : Width) (addr : Nat) (s : State) : SameOutside s.port s (performLoad w addr s) :=
  ⟨performLoad_params .., performLoad_inputs .., performLoad_port .., performLoad_response_other ..⟩

/-! ## The value of a load, byte by byte (R50, R51) -/

/-- A byte never written since power-up reads as this load's free value (R23, U1; log 2). -/
theorem loadByte_unwritten {s : State} {x : Nat} (h : s.mem.read x = none) :
    s.loadByte x = Config.unwrittenByte s.draws x := by
  rw [State.loadByte, h]

section
variable (s : State) (addr : Nat)

theorem toNat_memRead_half_mod : (memRead s .half addr).toNat % 256 = (s.loadByte addr).toNat := by
  rw [memRead, ← toNat_lane0, lane0_joinLanes]

theorem toNat_memRead_half_div : (memRead s .half addr).toNat / 256 = (s.loadByte (addr + 1)).toNat := by
  rw [memRead, ← toNat_lane1, lane1_joinLanes]

end

/-- Settles O16: the load in range is performed, and its value is the one byte that it reads, as a number. -/
theorem load8ReturnsTheByteZeroExtended : Obligations.Load8ReturnsTheByteZeroExtended := by
  intro s addr hin
  refine ⟨_, exec_load8_in hin, ?_⟩
  rw [performLoad_response, Response.loaded, toNat_memRead_byte]
  refine ⟨rfl, rfl, rfl, (s.loadByte addr).isLt, fun v hv => ?_, fun hnone => ?_, fun x => ?_, performLoad_draws ..,
    performLoad_sameOutside ..⟩
  · rw [loadByte_written hv]
  · rw [loadByte_unwritten hnone]
  · rw [performLoad_mem]

/-- Settles O17: the load in range is performed, and lane 0 is the byte read at the lower address, lane 1 the next one. -/
theorem load16ReturnsLowByteFirst : Obligations.Load16ReturnsLowByteFirst := by
  intro s addr hin
  refine ⟨_, exec_load16_in hin, ?_⟩
  rw [performLoad_response, Response.loaded, toNat_memRead_half_mod, toNat_memRead_half_div]
  refine ⟨rfl, rfl, rfl, fun v hv => ?_, fun hnone => ?_, fun v hv => ?_, fun hnone => ?_, fun x => ?_,
    performLoad_draws .., performLoad_sameOutside ..⟩
  · rw [loadByte_written hv]
  · rw [loadByte_unwritten hnone]
  · rw [loadByte_written hv]
  · rw [loadByte_unwritten hnone]
  · rw [performLoad_mem]

end Sys2Proof.Machine
end

section
/-! Proofs for the statement on NOP: what an operation that only answers leaves unchanged. -/

namespace Sys2Proof.Machine

/-- A response writes its own port's registers, and nothing else (R24). -/
theorem respond_sameOutside (r : Response) (s : State) : SameOutside s.port s (s.respond r) :=
  ⟨respond_params .., respond_inputs .., respond_port .., respond_response_of_other ..⟩

/-- Settles O15: NOP only answers, and what it answers is the idle response. -/
theorem nopGivesTheIdleResponseOnly : Obligations.NopGivesTheIdleResponseOnly := by
  intro s r hreq
  exact ⟨decodeRequest_of_not_req hreq, _, exec_nop s, respond_response_same .., respond_mem .., respond_draws ..,
    respond_sameOutside Response.idle s⟩

end Sys2Proof.Machine
end

section
/-! Proofs for the statements on the exceptions: when OutOfRange is raised, what it records and leaves unchanged, what the
other port sees of it, and the machine that goes on after it and after a loss of power. -/

namespace Sys2Proof.Machine

/-! ## One request and its bounds check (R131, R133, R140) -/

/-- A port that presents no request raises no error (R120). -/
theorem exec_decode_err_of_idle {r : Request} {s t : State} (h : exec (decodeRequest r) s = .next t)
    (hq : r.req = false) : (t.response s.port).err = false := by
  rw [exec_decode_idle s hq] at h
  cases h
  rw [respond_response_same, Response.idle]

/-- The check alone decides whether a request raises the error. -/
theorem exec_decode_err_iff {r : Request} {s t : State} (h : exec (decodeRequest r) s = .next t) :
    (t.response s.port).err = true ↔
      r.req = true ∧ s.params.capacity ≤ highestTouched (accessWidth r) r.addr := by
  refine ⟨fun herr => ?_, fun ⟨hq, hout⟩ => exec_decode_err_of_out h hq hout⟩
  cases hq : r.req
  · rw [exec_decode_err_of_idle h hq] at herr
    cases herr
  · refine ⟨rfl, Nat.not_lt.1 fun hin => ?_⟩
    rw [exec_decode_err_of_in h hq hin] at herr
    cases herr

/-- Settles O10: the check is the comparison of `hi` with CAPACITY, `hi` being written in the request's own bits. -/
theorem outOfRangeExactlyWhenHiReachesCapacity : Obligations.OutOfRangeExactlyWhenHiReachesCapacity := by
  intro s r
  obtain ⟨t, ht⟩ := exec_next (decodeRequest r) s
  rw [← highestTouched_accessWidth]
  exact ⟨t, ht, exec_decode_err_iff ht⟩

/-- Settles O11: a request that fails the check only answers, and its answer is OutOfRange(hi). -/
theorem failedRequestHasNoOtherEffect : Obligations.FailedRequestHasNoOtherEffect := by
  intro s r hq hout
  exact ⟨_, exec_decode_out hq hout, raiseOutOfRange_response .., raiseOutOfRange_mem .., raiseOutOfRange_draws ..,
    respond_sameOutside (Response.outOfRange _) s⟩

/-- Each byte that a load touches stands in its own lane: the one at the operand address in lane 0 (R42, R50, R51). -/
theorem lane_memRead {w : Width} {addr x : Nat} (s : State) (h : touches w addr x = true) :
    (if x = addr then lane0 (memRead s w addr) else lane1 (memRead s w addr)) = s.loadByte x := by
  cases w
  · obtain rfl := touches_byte.1 h
    rw [if_pos rfl, memRead, lane0_zext16]
  · rcases touches_half.1 h with rfl | rfl
    · rw [if_pos rfl, memRead, lane0_joinLanes]
    · rw [if_neg (Nat.succ_ne_self _), memRead, lane1_joinLanes]

/-- Settles O14: a store in range stores every byte it touches, and a load in range reads every byte it touches. -/
theorem everyInRangeRequestIsPerformed : Obligations.EveryInRangeRequestIsPerformed := by
  intro s p r hq hin
  obtain ⟨t, ht⟩ := exec_next (decodeRequest r) (s.serve p)
  refine ⟨t, ht, (exec_decode_ack ht).trans hq, exec_decode_err_of_in ht hq hin, fun hw x hx => ?_,
    fun hw x v hx hv => ?_⟩
  · rw [exec_serve_read ht, if_pos (storesByte_eq_true.2 ⟨hw, accessesByte_eq_true.2 ⟨hq, hin, hx⟩⟩)]
  · rw [exec_serve_loadsFrom ht hq hw hin, lane_memRead s hx, loadByte_written hv]

/-! ## The other port's registers are no input of an instruction -/

section
variable (s : State) (r : Response)

theorem respond_setResponse_other (r' : Response) :
    (s.setResponse s.port.other r).respond r' = (s.respond r').setResponse s.port.other r := by
  obtain ⟨params, mem, a, b, port, inputs, draws⟩ := s
  cases port <;> rfl

theorem memRead_setResponse (p : Port) (w : Width) (addr : Nat) :
    memRead (s.setResponse p r) w addr = memRead s w addr := by
  cases p <;> cases w <;> rfl

theorem performLoad_setResponse_other (w : Width) (addr : Nat) :
    performLoad w addr (s.setResponse s.port.other r) = (performLoad w addr s).setResponse s.port.other r := by
  rw [performLoad, memRead_setResponse]
  obtain ⟨params, mem, a, b, port, inputs, draws⟩ := s
  cases port <;> rfl

theorem performStore_setResponse_other (w : Width) (addr : Nat) (v : Half) :
    performStore w addr v (s.setResponse s.port.other r) = (performStore w addr v s).setResponse s.port.other r := by
  obtain ⟨params, mem, a, b, port, inputs, draws⟩ := s
  cases port <;> rfl

variable {s}

theorem checked_setResponse_other {w : Width} {addr : Nat} {f : State → State}
    (hf : f (s.setResponse s.port.other r) = (f s).setResponse s.port.other r) :
    checked w addr f (s.setResponse s.port.other r) = (checked w addr f s).setResponse s.port.other r := by
  rcases Nat.lt_or_ge (highestTouched w addr) s.params.capacity with hin | hout
  · rw [checked_in f hin, checked_in f (by rwa [setResponse_params]), hf]
  · rw [checked_out f hout, checked_out f (by rwa [setResponse_params])]
    exact respond_setResponse_other s r _

/-- In two states that differ in the other port's registers only, an instruction does the same, and it leaves that
difference as it was. -/
theorem exec_setResponse_other {i : Instr} {t : State} (h : exec i s = .next t) :
    exec i (s.setResponse s.port.other r) = .next (t.setResponse s.port.other r) := by
  cases i with
  | nop =>
    cases h
    exact congrArg _ (respond_setResponse_other s r _)
  | load8 addr =>
    cases h
    exact congrArg _ (checked_setResponse_other r (performLoad_setResponse_other s r _ _))
  | load16 addr =>
    cases h
    exact congrArg _ (checked_setResponse_other r (performLoad_setResponse_other s r _ _))
  | store8 addr data =>
    cases h
    exact congrArg _ (checked_setResponse_other r (performStore_setResponse_other s r _ _ _))
  | store16 addr data =>
    cases h
    exact congrArg _ (checked_setResponse_other r (performStore_setResponse_other s r _ _ _))

end

theorem performEdge_answers (ra rb : Request) (s : State) : ∃ t, performEdge ra rb s = .next t := by
  obtain ⟨_, s2, -, -, hedge⟩ := performEdge_next ra rb s
  exact ⟨_, hedge⟩

/-! ## An edge at which a port's request fails (R132, R135) -/

section
variable {ra rb : Request} {s : State}

/-- Where port A's request fails, the edge is the one at which port A is idle, but for port A's response. -/
theorem performEdge_of_out_a (hq : ra.req = true) (hout : s.params.capacity ≤ highestTouched (accessWidth ra) ra.addr) :
    ∃ u, performEdge Request.idle rb s = .next u ∧ performEdge ra rb s =
      .next (u.setResponse .a (Response.outOfRange (highestTouched (accessWidth ra) ra.addr))) := by
  obtain ⟨t, ht⟩ := exec_next (decodeRequest rb) (s.serve .b)
  have hb : ∀ r, exec (decodeRequest rb) (((s.serve .a).respond r).serve .b) = .next (t.setResponse .a r) :=
    fun r => exec_setResponse_other (s := s.serve .b) r ht
  refine ⟨(t.setResponse .a Response.idle).serve .a, ?_, ?_⟩
  · rw [performEdge, performRequest, exec_decode_idle _ rfl, andThen_next, performRequest, hb, andThen_next]
  · rw [performEdge, performRequest, exec_decode_out (s := s.serve .a) hq hout, andThen_next, performRequest,
      raiseOutOfRange, hb, andThen_next]
    rfl

/-- Where port B's request fails, the edge is the one at which port B is idle, but for port B's response. -/
theorem performEdge_of_out_b (hq : rb.req = true) (hout : s.params.capacity ≤ highestTouched (accessWidth rb) rb.addr) :
    ∃ u, performEdge ra Request.idle s = .next u ∧ performEdge ra rb s =
      .next (u.setResponse .b (Response.outOfRange (highestTouched (accessWidth rb) rb.addr))) := by
  obtain ⟨s1, h1⟩ := exec_next (decodeRequest ra) (s.serve .a)
  obtain ⟨hparams, -, -⟩ := exec_fixed h1
  refine ⟨((s1.serve .b).setResponse .b Response.idle).serve .a, ?_, ?_⟩
  · rw [performEdge_idle_b, h1, andThen_next]
  · rw [performEdge, performRequest, h1, andThen_next, performRequest,
      exec_decode_out (s := s1.serve .b) hq (by rwa [serve_params, hparams]), andThen_next]
    rfl

variable {t : State} (h : performEdge ra rb s = .next t)
include h

theorem performEdge_a_of_out (hq : ra.req = true) (hout : s.params.capacity ≤ highestTouched (accessWidth ra) ra.addr) :
    t.a = Response.outOfRange (highestTouched (accessWidth ra) ra.addr) := by
  obtain ⟨u, -, hnext⟩ := performEdge_of_out_a (rb := rb) hq hout
  cases h.symm.trans hnext
  rfl

theorem performEdge_b_of_out (hq : rb.req = true) (hout : s.params.capacity ≤ highestTouched (accessWidth rb) rb.addr) :
    t.b = Response.outOfRange (highestTouched (accessWidth rb) rb.addr) := by
  obtain ⟨u, -, hnext⟩ := performEdge_of_out_b (ra := ra) hq hout
  cases h.symm.trans hnext
  rfl

end

/-- The step of a state at whose next edge, one without reset, these requests are presented. -/
theorem step_presenting {s : State} {ra rb : Request} {rest : List Stimulus} (hlegal : s.params.Legal)
    (ha : ra.Representable s.params.aw) (hb : rb.Representable s.params.aw) :
    step { s with inputs := .edge { rst := .driven false, a := .driven ra, b := .driven rb } :: rest } =
      performEdge ra rb { s with inputs := rest } :=
  (if_pos hlegal).trans (clockEdge_driven (s := { s with inputs := rest }) ha hb)

/-- Settles O28: the failing request changes its own port's response only, and that is no input of the other request. -/
theorem errorsOfThePortsAreIndependent : Obligations.ErrorsOfThePortsAreIndependent := by
  intro s ra rb rest h
  rw [step_of_presents h]
  obtain ⟨hlegal, ha, hb, -⟩ := h
  refine ⟨fun hq hout => ?_, fun hq hout => ?_⟩
  · obtain ⟨u, hidle, hedge⟩ := performEdge_of_out_a (s := { s with inputs := rest }) (rb := rb) hq hout
    exact ⟨_, u, hedge, (step_presenting hlegal (idle_representable _) hb).trans hidle, rfl, rfl, rfl⟩
  · obtain ⟨u, hidle, hedge⟩ := performEdge_of_out_b (s := { s with inputs := rest }) (ra := ra) hq hout
    exact ⟨_, u, hedge, (step_presenting hlegal ha (idle_representable _)).trans hidle, rfl, rfl, rfl⟩

/-- What the error response of a representable request records: `hi` itself, in AW+1 bits, from which the base address of
a 16-bit access can be had. -/
theorem outOfRange_records {aw : Nat} {r : Request} {resp : Response} (hr : r.Representable aw)
    (h : resp = Response.outOfRange (highestTouched (accessWidth r) r.addr)) :
    resp.err = true ∧ resp.errAddr = highestTouched (accessWidth r) r.addr ∧ resp.errAddr < 2 ^ (aw + 1) ∧
      (r.w16 = true → r.addr = resp.errAddr - 1) := by
  subst h
  refine ⟨rfl, rfl, highestTouched_lt _ hr, fun h16 => ?_⟩
  rw [accessWidth_half h16, highestTouched_half, Response.outOfRange, Nat.add_sub_cancel]

/-- Settles O13: each port that fails has the error response, which records `hi`; the edge keeps the parameters. -/
theorem errorRecordsHighestTouchedAddress : Obligations.ErrorRecordsHighestTouchedAddress := by
  intro s ra rb rest h
  rw [step_of_presents h]
  obtain ⟨-, ha, hb, -⟩ := h
  obtain ⟨t, hedge⟩ := performEdge_answers ra rb { s with inputs := rest }
  obtain ⟨hparams, -⟩ := performEdge_fixed hedge
  exact ⟨t, hedge, congrArg Params.capacity hparams,
    fun hq hout => outOfRange_records ha (performEdge_a_of_out hedge hq hout),
    fun hq hout => outOfRange_records hb (performEdge_b_of_out hedge hq hout)⟩

/-! ## A loss of power (R145) and the steps that always complete (R134, R157) -/

theorem step_of_powerCycle {s : State} {rest : List Stimulus} (hlegal : s.params.Legal)
    (hinputs : s.inputs = .powerCycle :: rest) : step s = .next (powerUp s.params s.draws rest) := by
  rw [step, nextEvent, if_pos hlegal, hinputs]

/-- Whatever a port's `err_addr` register powers up with, it holds AW+1 bits (R24). -/
theorem powerUp_errAddr_lt (params : Params) (draw : Nat) (p : Port) :
    (Response.powerUp params draw p).errAddr < 2 ^ (params.aw + 1) := Nat.mod_lt _ (Nat.two_pow_pos _)

/-- Settles O35: the step is the power-up of a block with the same parameters, at the next draw. -/
theorem powerLossForgetsEveryByte : Obligations.PowerLossForgetsEveryByte := fun s _ hlegal hinputs =>
  ⟨_, step_of_powerCycle hlegal hinputs, read_nil, rfl, rfl, Nat.lt_succ_self s.draws, powerUp_errAddr_lt ..,
    powerUp_errAddr_lt ..⟩

/-- An edge with stable and representable inputs always completes, with reset or without. -/
theorem step_next_of_presents {s : State} {rst : Bool} {ra rb : Request} {rest : List Stimulus}
    (h : s.Presents rst ra rb rest) : ∃ t, step s = .next t := by
  rw [step_of_presents h]
  cases rst with
  | true => exact ⟨_, if_pos rfl⟩
  | false => exact performEdge_answers ra rb { s with inputs := rest }

/-- With legal parameters, only an unstable or unrepresentable input of the next event can stop the machine. -/
theorem step_next_of_stable {s : State} (hlegal : s.params.Legal)
    (hstable : ∀ e, s.inputs.head? = some (.edge e) → ∃ rst ra rb, e = ⟨.driven rst, .driven ra, .driven rb⟩ ∧
      ra.Representable s.params.aw ∧ rb.Representable s.params.aw) : ∃ t, step s = .next t := by
  rcases hinputs : s.inputs with _ | ⟨_ | _, rest⟩
  case nil =>
    rw [step_of_unlisted hlegal hinputs]
    exact performEdge_answers Request.idle Request.idle s
  case cons.edge e =>
    obtain ⟨rst, ra, rb, rfl, ha, hb⟩ := hstable e (by rw [hinputs, List.head?_cons])
    exact step_next_of_presents ⟨hlegal, ha, hb, hinputs⟩
  case cons.powerCycle => exact ⟨_, step_of_powerCycle hlegal hinputs⟩

/-- Settles O45: each of the three events completes, and every step keeps the machine sound. -/
theorem machineNeverStopsOnStableInputs : Obligations.MachineNeverStopsOnStableInputs := by
  intro s hs hstable
  obtain ⟨t, ht⟩ := step_next_of_stable hs.1 hstable
  exact ⟨t, ht, step_sound ht hs⟩

end Sys2Proof.Machine
end

section
/-! Proofs for the statements on reset and hazards: what a load at a later edge sees of a store, what the two ports of one
edge may exchange, how long a response lives, and the edges that reset or stop the machine. -/

namespace Sys2Proof.Machine

/-! ## Stores and later loads (R158) -/

/-- No step of a run changes the parameters (R154). -/
theorem run_params {k : Nat} {s t : State} (h : Host.Core.run Sys2Proof.core k s = .next t) : t.params = s.params := by
  induction k generalizing s with
  | zero =>
    cases h
    rfl
  | succ k ih =>
    obtain ⟨u, hstep, hrun⟩ := run_succ_eq_next (M := Sys2Proof.core) h
    exact (ih hrun).trans (step_fixed hstep).1

/-- What the array holds, after the edge, at a byte that a store of the edge names: port B's value if both ports name it. -/
theorem EdgeOf.read_of_named {s mid t : State} {ra rb : Request} {x : Nat} {v : Byte} (e : EdgeOf s ra rb mid t)
    (h : (storesByte s.params.capacity rb x = true ∧ v = storedByte rb x) ∨
      (storesByte s.params.capacity rb x = false ∧ storesByte s.params.capacity ra x = true ∧ v = storedByte ra x)) :
    t.mem.read x = some v := by
  rcases h with ⟨hb, rfl⟩ | ⟨hb, ha, rfl⟩
  · rw [e.read_end, if_pos hb]
  · rw [← e.read_mid_of_not_stored hb, e.read_mid_of_stored ha]

section
variable {s : State} {x : Nat} {v : Byte} (hv : s.mem.read x = some v) (p : Port)
include hv

theorem exec_load8_answers_written (hin : x < s.params.capacity) :
    ∃ t, exec (.load8 x) (s.serve p) = .next t ∧ (t.response p).ack = true ∧ (t.response p).rdata = zext16 v := by
  refine ⟨_, exec_load8_in (s := s.serve p) hin, ?_⟩
  rw [performLoad_serve_response, memRead_byte_of_written hv]
  exact ⟨rfl, rfl⟩

/-- The byte at the operand address of a LOAD16 stands in lane 0, whatever the other byte is (R42). -/
theorem exec_load16_lane0_written (hin : x + 1 < s.params.capacity) :
    ∃ t, exec (.load16 x) (s.serve p) = .next t ∧ (t.response p).ack = true ∧ lane0 (t.response p).rdata = v := by
  refine ⟨_, exec_load16_in (s := s.serve p) hin, ?_⟩
  rw [performLoad_serve_response, Response.loaded, memRead, lane0_joinLanes]
  exact ⟨rfl, loadByte_written hv⟩

/-- The byte after the operand address of a LOAD16 stands in lane 1, whatever the other byte is (R42). -/
theorem exec_load16_lane1_written (hin : x < s.params.capacity) (hx : 1 ≤ x) :
    ∃ t, exec (.load16 (x - 1)) (s.serve p) = .next t ∧ (t.response p).ack = true ∧ lane1 (t.response p).rdata = v := by
  have hlast : x - 1 + 1 = x := Nat.sub_add_cancel hx
  refine ⟨_, exec_load16_in (s := s.serve p) (hlast.symm ▸ hin), ?_⟩
  rw [performLoad_serve_response, Response.loaded, memRead, lane1_joinLanes, hlast]
  exact ⟨rfl, loadByte_written hv⟩

end

/-- Settles O42: the edge writes the byte, the steps that follow leave it and CAPACITY alone, and a load finds it there. -/
theorem storeIsSeenByEveryLaterLoad : Obligations.StoreIsSeenByEveryLaterLoad := by
  intro s t u ra rb rest k x v h hnamed hstep hrun hleaves q
  obtain ⟨_, t', hstep', e⟩ := step_edgeOf h
  cases hstep.symm.trans hstep'
  obtain ⟨hparams, hinputs⟩ := step_fixed hstep
  obtain ⟨-, -, -, hlisted⟩ := h
  have hrest : t.inputs = rest := by rw [hinputs, hlisted, List.tail_cons]
  have hread : u.mem.read x = some v := by
    rw [run_read_of_leaves hrun (by rwa [hrest, hparams]), e.read_of_named hnamed]
  have hcap : u.params = s.params := (run_params hrun).trans hparams
  have hin : x < s.params.capacity := by
    rcases hnamed with ⟨hb, -⟩ | ⟨-, ha, -⟩
    · exact lt_capacity_of_storesByte hb
    · exact lt_capacity_of_storesByte ha
  rw [← hcap] at hin ⊢
  exact ⟨exec_load8_answers_written hread q hin, exec_load16_lane0_written hread q,
    exec_load16_lane1_written hread q hin⟩

/-! ## Requests that do not overlap (R57, R159) -/

/-- A load's value depends on the bytes that it touches only. -/
theorem memRead_congr {s t : State} {w : Width} {addr : Nat}
    (h : ∀ x, touches w addr x = true → t.loadByte x = s.loadByte x) : memRead t w addr = memRead s w addr := by
  cases w
  · rw [memRead, memRead, h addr (touches_byte.2 rfl)]
  · rw [memRead, memRead, h addr (touches_half.2 (.inl rfl)), h (addr + 1) (touches_half.2 (.inr rfl))]

/-- A request has one answer in any two states, on any ports, in which the bytes it accesses are written and the same. -/
theorem exec_decode_response_congr {r : Request} {s s' t t' : State} (h : exec (decodeRequest r) s = .next t)
    (h' : exec (decodeRequest r) s' = .next t') (hparams : s'.params = s.params)
    (hsame : ∀ x, accessesByte s.params.capacity r x = true → s'.mem.read x = s.mem.read x)
    (hwritten : ∀ x, accessesByte s.params.capacity r x = true → s.mem.read x ≠ none) :
    t.response s.port = t'.response s'.port := by
  cases hq : r.req
  · rw [exec_decode_idle _ hq] at h h'
    cases h
    cases h'
    rw [respond_response_same, respond_response_same]
  · rcases Nat.lt_or_ge (highestTouched (accessWidth r) r.addr) s.params.capacity with hin | hout
    · have hin' : highestTouched (accessWidth r) r.addr < s'.params.capacity := hparams ▸ hin
      cases hw : r.we
      · have hbyte : ∀ x, touches (accessWidth r) r.addr x = true → s'.loadByte x = s.loadByte x := fun x hx => by
          have haccess : accessesByte s.params.capacity r x = true := accessesByte_eq_true.2 ⟨hq, hin, hx⟩
          obtain ⟨v, hv⟩ := Option.ne_none_iff_exists'.1 (hwritten x haccess)
          rw [loadByte_written hv, loadByte_written ((hsame x haccess).trans hv)]
        rw [exec_decode_load_in hq hw hin] at h
        rw [exec_decode_load_in hq hw hin'] at h'
        cases h
        cases h'
        rw [performLoad_response, performLoad_response, memRead_congr hbyte]
      · rw [exec_decode_store_in hq hw hin] at h
        rw [exec_decode_store_in hq hw hin'] at h'
        cases h
        cases h'
        rw [performStore_response, performStore_response]
    · rw [exec_decode_out hq hout] at h
      rw [exec_decode_out hq (hparams ▸ hout)] at h'
      cases h
      cases h'
      rw [raiseOutOfRange_response, raiseOutOfRange_response]

/-- A byte that a request does not access is one that it does not store. -/
theorem storesByte_of_not_accesses {capacity x : Nat} {r : Request} (h : accessesByte capacity r x = false) :
    storesByte capacity r x = false := by
  rw [storesByte, h, Bool.and_false]

section
variable {s : State} {ra rb : Request} {t u : State} (ht : performEdge ra rb s = .next t) (hu : performEdge rb ra s = .next u)
include ht hu

/-- Where no byte is stored by both requests, both orders leave the same bytes. -/
theorem performEdge_swap_read {x : Nat}
    (hone : storesByte s.params.capacity ra x = true → storesByte s.params.capacity rb x = false) :
    t.mem.read x = u.mem.read x := by
  obtain ⟨t1, -, _, -, -, ht', -, -, -, -, -, -, -, ht1, hend_t⟩ := performEdge_facts ra rb s s.inputs
  obtain ⟨u1, -, _, -, -, hu', -, -, -, -, -, -, -, hu1, hend_u⟩ := performEdge_facts rb ra s s.inputs
  cases ht.symm.trans ht'
  cases hu.symm.trans hu'
  rw [hend_t, hend_u, ht1, hu1]
  cases ha : storesByte s.params.capacity ra x
  · rfl
  · rw [hone ha]
    rfl

/-- A request answers on port A as on port B after the other request, if that one stores none of the bytes it accesses and
all of them have been written. -/
theorem performEdge_swap_response
    (hapart : ∀ x, storesByte s.params.capacity rb x = true → accessesByte s.params.capacity ra x = false)
    (hwritten : ∀ x, accessesByte s.params.capacity ra x = true → s.mem.read x ≠ none) : t.a = u.b := by
  obtain ⟨t1, -, _, hexec, -, ht', -, -, -, -, hta, -⟩ := performEdge_facts ra rb s s.inputs
  obtain ⟨u1, u2, _, -, hexec', hu', -, hparams, -, -, -, hub, -, hread, -⟩ := performEdge_facts rb ra s s.inputs
  cases ht.symm.trans ht'
  cases hu.symm.trans hu'
  rw [hta, hub]
  have hsame : ∀ x, accessesByte s.params.capacity ra x = true → u1.mem.read x = s.mem.read x := fun x hx =>
    (hread x).trans (if_neg fun hb => Bool.false_ne_true ((hapart x hb).symm.trans hx))
  exact exec_decode_response_congr hexec hexec' hparams hsame hwritten

end

/-- Settles O29: no byte is stored by both requests, and each finds the bytes it accesses as they were before the edge,
whichever port it is on. -/
theorem nonOverlappingRequestsMaySwapPorts : Obligations.NonOverlappingRequestsMaySwapPorts := by
  intro s ra rb rest h hab hba
  rw [step_of_presents h]
  obtain ⟨hlegal, ha, hb, -⟩ := h
  obtain ⟨t, ht⟩ := performEdge_answers ra rb { s with inputs := rest }
  obtain ⟨u, hu⟩ := performEdge_answers rb ra { s with inputs := rest }
  exact ⟨t, u, ht, (step_presenting hlegal hb ha).trans hu,
    fun x => performEdge_swap_read (s := { s with inputs := rest }) ht hu fun hx => storesByte_of_not_accesses (hab x hx),
    performEdge_swap_response (s := { s with inputs := rest }) ht hu hba,
    fun hw => (performEdge_swap_response (s := { s with inputs := rest }) hu ht hab hw).symm⟩

/-! ## One request per port at every edge (R157) -/

theorem performEdge_ack {ra rb : Request} {s t : State} (h : performEdge ra rb s = .next t) :
    t.a.ack = ra.req ∧ t.b.ack = rb.req := by
  obtain ⟨s1, s2, _, h1, h2, h3, -, -, -, -, hta, htb, -⟩ := performEdge_facts ra rb s s.inputs
  cases h.symm.trans h3
  rw [hta, htb]
  exact ⟨exec_decode_ack h1, exec_decode_ack h2⟩

/-- Settles O30: both instructions complete and acknowledge their own request, and the edge took one event off the list. -/
theorem everyEdgeAcceptsOneRequestPerPort : Obligations.EveryEdgeAcceptsOneRequestPerPort := by
  intro s ra rb rest h
  rw [step_of_presents h]
  obtain ⟨t, hedge⟩ := performEdge_answers ra rb { s with inputs := rest }
  obtain ⟨hacka, hackb⟩ := performEdge_ack hedge
  exact ⟨t, hedge, hacka, hackb, (performEdge_fixed hedge).2⟩

/-! ## A response lives one cycle (R156) -/

section
variable (s : State) (r : Response)

theorem respond_setResponse_own (r' : Response) : (s.setResponse s.port r).respond r' = s.respond r' := by
  obtain ⟨params, mem, a, b, port, inputs, draws⟩ := s
  cases port <;> rfl

theorem performLoad_setResponse_own (w : Width) (addr : Nat) :
    performLoad w addr (s.setResponse s.port r) = performLoad w addr s := by
  rw [performLoad, memRead_setResponse]
  obtain ⟨params, mem, a, b, port, inputs, draws⟩ := s
  cases port <;> rfl

theorem performStore_setResponse_own (w : Width) (addr : Nat) (v : Half) :
    performStore w addr v (s.setResponse s.port r) = performStore w addr v s := by
  obtain ⟨params, mem, a, b, port, inputs, draws⟩ := s
  cases port <;> rfl

theorem checked_setResponse_own {w : Width} {addr : Nat} {f : State → State} (hf : f (s.setResponse s.port r) = f s) :
    checked w addr f (s.setResponse s.port r) = checked w addr f s := by
  rw [checked, checked, setResponse_params, hf, raiseOutOfRange, raiseOutOfRange, respond_setResponse_own]

/-- What the served port's own registers held is no input of an instruction: it replaces them all. -/
theorem exec_setResponse_own (i : Instr) : exec i (s.setResponse s.port r) = exec i s := by
  cases i with
  | nop => exact congrArg Host.Outcome.next (respond_setResponse_own s r _)
  | load8 addr =>
    exact congrArg Host.Outcome.next (checked_setResponse_own s r (performLoad_setResponse_own s r _ _))
  | load16 addr =>
    exact congrArg Host.Outcome.next (checked_setResponse_own s r (performLoad_setResponse_own s r _ _))
  | store8 addr data =>
    exact congrArg Host.Outcome.next (checked_setResponse_own s r (performStore_setResponse_own s r _ _ _))
  | store16 addr data =>
    exact congrArg Host.Outcome.next (checked_setResponse_own s r (performStore_setResponse_own s r _ _ _))

end

/-- Port A's registers are replaced by port A's request and no input of port B's, and the other way round. -/
theorem performEdge_setResponses (ra rb : Request) (s : State) (a' b' : Response) :
    performEdge ra rb { s with a := a', b := b' } = performEdge ra rb s := by
  obtain ⟨s1, h1⟩ := exec_next (decodeRequest ra) (s.serve .a)
  obtain ⟨-, -, hport⟩ := exec_fixed h1
  have ha : exec (decodeRequest ra) ({ s with a := a', b := b' }.serve .a) = .next (s1.setResponse .b b') :=
    calc exec (decodeRequest ra) ({ s with a := a', b := b' }.serve .a)
        = exec (decodeRequest ra) ((s.serve .a).setResponse .b b') :=
          exec_setResponse_own ((s.serve .a).setResponse .b b') a' _
      _ = .next (s1.setResponse .b b') := exec_setResponse_other (s := s.serve .a) b' h1
  have hb : exec (decodeRequest rb) ((s1.setResponse .b b').serve .b) = exec (decodeRequest rb) (s1.serve .b) :=
    exec_setResponse_own (s1.serve .b) b' _
  simp only [performEdge, performRequest, ha, h1, andThen_next, hb]

/-- Nothing of the earlier responses is left after an edge, with reset or without. -/
theorem step_setResponses {s : State} {rst : Bool} {ra rb : Request} {rest : List Stimulus} (a' b' : Response)
    (h : s.Presents rst ra rb rest) : step { s with a := a', b := b' } = step s := by
  rw [step_of_presents h, step_of_presents (s := { s with a := a', b := b' }) h]
  cases rst with
  | true => rfl
  | false => exact performEdge_setResponses ra rb { s with inputs := rest } a' b'

theorem exec_decode_response_of_idle {r : Request} {s t : State} (h : exec (decodeRequest r) s = .next t)
    (hq : r.req = false) : t.response s.port = Response.idle := by
  rw [exec_decode_idle s hq] at h
  cases h
  exact respond_response_same ..

theorem performEdge_response_of_idle {ra rb : Request} {s t : State} (h : performEdge ra rb s = .next t) :
    (ra.req = false → t.a = Response.idle) ∧ (rb.req = false → t.b = Response.idle) := by
  obtain ⟨s1, s2, _, h1, h2, h3, -, -, -, -, hta, htb, -⟩ := performEdge_facts ra rb s s.inputs
  cases h.symm.trans h3
  rw [hta, htb]
  exact ⟨exec_decode_response_of_idle h1, exec_decode_response_of_idle h2⟩

/-- Settles O31: the step does not read the registers, and it makes those of a port without a request idle. -/
theorem responseIsReplacedAtTheNextEdge : Obligations.ResponseIsReplacedAtTheNextEdge := by
  intro s a' b' rst ra rb rest h
  rw [step_setResponses a' b' h, step_of_presents h]
  cases rst with
  | true => exact ⟨_, if_pos rfl, if_pos rfl, fun _ => resetEdge_a _, fun _ => resetEdge_b _⟩
  | false =>
    obtain ⟨t, hedge⟩ := performEdge_answers ra rb { s with inputs := rest }
    exact ⟨t, hedge, hedge, performEdge_response_of_idle hedge⟩

/-! ## Reset and unstable inputs (R151, R152, R161) -/

/-- Settles O33: the edge with `rst = 1` does not look at the requests. -/
theorem resetClearsResponsesAndDiscardsRequests : Obligations.ResetClearsResponsesAndDiscardsRequests := by
  intro s ra rb rest h
  rw [step_of_presents h, if_pos rfl]
  rfl

theorem clockEdge_of_unstable {e : EdgeInputs} (s : State)
    (h : e.rst = .unstable ∨ e.a = .unstable ∨ e.b = .unstable) : clockEdge e s = .refused .unstableInput := by
  obtain ⟨rst, a, b⟩ := e
  rcases h with h | h | h
  · cases h
    rfl
  · cases h
    cases rst <;> rfl
  · cases h
    cases rst <;> cases a <;> rfl

/-- Settles O36: the parameters being legal, the step is the listed edge, which refuses an unstable pin of any kind. -/
theorem unstableInputIsRefused : Obligations.UnstableInputIsRefused := by
  intro s e rest hlegal hinputs hunstable
  rw [step_of_edge hlegal hinputs]
  exact clockEdge_of_unstable _ hunstable

end Sys2Proof.Machine
end
